-- ==== Sys2Proof/Word.lean ====
section
/-! DEFINITION. The word types of the core (spec/00_scope.md R8, R10) and nothing else: every value is unsigned. -/

namespace Sys2Proof

/-- An 8-bit value: a general register, a timer, a byte of memory, an immediate `nn` (R8). -/
abbrev Byte := BitVec 8

/-- A 16-bit value: an instruction word, `pc`, `I`, a call-stack entry (R8, R90). -/
abbrev Word := BitVec 16

/-- A 12-bit address field `nnn` (R91). -/
abbrev Addr12 := BitVec 12

/-- The index of a general register `V0`..`VF`. A register index is 4 bits and can never be out of range (R23). -/
abbrev RegIdx := Fin 16

/-- The index of one of the sixteen key latches (R34). -/
abbrev KeyIdx := Fin 16

end Sys2Proof
end

