-- ==== Sys2Proof/Config.lean ====
section
/-! DEFINITION. The configuration of one core (spec/00_scope.md R9; spec/92_eei_decisions.md D4, D5, D25, D29–D33) and the one
free value, the random draw of `Cxnn`. A configuration is fixed for a run (R39, R342); State carries it as data (log entry 1). -/

namespace Sys2Proof

/-- `ISA_PROFILE` (R3): which instructions the decoder admits. -/
inductive IsaProfile where
  | base
  | full
  deriving DecidableEq, Repr

/-- `ILLEGAL_OPCODE_POLICY` (R301): what an illegal word does. -/
inductive IllegalPolicy where
  | halt
  | nop
  deriving DecidableEq, Repr

/-- `SHIFT_SOURCE` (R204, R206): which register `8xy6` and `8xyE` shift. -/
inductive ShiftSource where
  | vy
  | vx
  deriving DecidableEq, Repr

/-- `JUMP_OFFSET_REG` (R222): which register `Bnnn` adds. -/
inductive JumpOffsetReg where
  | v0
  | vx
  deriving DecidableEq, Repr

/-- `LDST_I_INCREMENT` (R246): what `Fx55` and `Fx65` leave in `I`. -/
inductive LdstIncrement where
  | none
  | xPlus1
  | x
  deriving DecidableEq, Repr

/-- `DRAW_EDGE` (R261): what happens to sprite pixels past the right or bottom edge. -/
inductive DrawEdge where
  | clip
  | wrap
  deriving DecidableEq, Repr

/-- `FONT_TABLE`: 16 glyphs of 5 bytes (R31). -/
abbrev FontTable := Vector Byte 80

/-- The parameters of the step relation that R9 and R31 name. -/
structure Config where
  profile       : IsaProfile
  illegalPolicy : IllegalPolicy
  shiftSource   : ShiftSource
  jumpOffsetReg : JumpOffsetReg
  ldstIncrement : LdstIncrement
  drawEdge      : DrawEdge
  fontTable     : FontTable
  deriving DecidableEq, Repr

/-- `draw_rand8()` (R260, D29): the byte that the `k`-th draw of a run gives. It has no body, so nothing can be proved about
its value; the model must not fix the draw (log entry 5). -/
opaque Config.drawRand8 : Nat → Byte

end Sys2Proof
end

