-- ==== Sys2Proof/Syntax.lean ====
section
/-! DEFINITION. The instructions: one constructor per row of spec/opcode_table.json (spec/30_encoding.md R97), in the table's
order. The operands are typed by their field's width, so a register index or a count is never out of range (R23, R94). -/

namespace Sys2Proof

/-- The 34 instructions of R97. -/
inductive Instr where
  /-- `00E0` CLS -/
  | cls
  /-- `00EE` RET -/
  | ret
  /-- `1nnn` JP nnn -/
  | jp (nnn : Addr12)
  /-- `2nnn` CALL nnn -/
  | call (nnn : Addr12)
  /-- `3xnn` SE Vx, nn -/
  | seImm (x : RegIdx) (nn : Byte)
  /-- `4xnn` SNE Vx, nn -/
  | sneImm (x : RegIdx) (nn : Byte)
  /-- `5xy0` SE Vx, Vy -/
  | seReg (x y : RegIdx)
  /-- `6xnn` LD Vx, nn -/
  | ldImm (x : RegIdx) (nn : Byte)
  /-- `7xnn` ADD Vx, nn -/
  | addImm (x : RegIdx) (nn : Byte)
  /-- `8xy0` LD Vx, Vy -/
  | ldReg (x y : RegIdx)
  /-- `8xy1` OR Vx, Vy -/
  | orReg (x y : RegIdx)
  /-- `8xy2` AND Vx, Vy -/
  | andReg (x y : RegIdx)
  /-- `8xy3` XOR Vx, Vy (FULL) -/
  | xorReg (x y : RegIdx)
  /-- `8xy4` ADD Vx, Vy (FULL) -/
  | addReg (x y : RegIdx)
  /-- `8xy5` SUB Vx, Vy (FULL) -/
  | subReg (x y : RegIdx)
  /-- `8xy6` SHR Vx, Vy (FULL) -/
  | shr (x y : RegIdx)
  /-- `8xy7` SUBN Vx, Vy (FULL) -/
  | subn (x y : RegIdx)
  /-- `8xyE` SHL Vx, Vy (FULL) -/
  | shl (x y : RegIdx)
  /-- `9xy0` SNE Vx, Vy (FULL) -/
  | sneReg (x y : RegIdx)
  /-- `Annn` LD I, nnn (FULL) -/
  | ldI (nnn : Addr12)
  /-- `Bnnn` JP V0, nnn (FULL) -/
  | jpV0 (nnn : Addr12)
  /-- `Cxnn` RND Vx, nn (FULL) -/
  | rnd (x : RegIdx) (nn : Byte)
  /-- `Dxyn` DRW Vx, Vy, n (FULL); `n` is the row count 0..15 -/
  | drw (x y : RegIdx) (n : Fin 16)
  /-- `Ex9E` SKP Vx (FULL) -/
  | skp (x : RegIdx)
  /-- `ExA1` SKNP Vx (FULL) -/
  | sknp (x : RegIdx)
  /-- `Fx07` LD Vx, DT (FULL) -/
  | ldVxDT (x : RegIdx)
  /-- `Fx0A` LD Vx, K (FULL) -/
  | ldVxK (x : RegIdx)
  /-- `Fx15` LD DT, Vx (FULL) -/
  | ldDTVx (x : RegIdx)
  /-- `Fx18` LD ST, Vx (FULL) -/
  | ldSTVx (x : RegIdx)
  /-- `Fx1E` ADD I, Vx (FULL) -/
  | addIVx (x : RegIdx)
  /-- `Fx29` LD F, Vx (FULL) -/
  | ldFVx (x : RegIdx)
  /-- `Fx33` LD B, Vx (FULL) -/
  | ldBVx (x : RegIdx)
  /-- `Fx55` LD [I], Vx (FULL) -/
  | ldMemVx (x : RegIdx)
  /-- `Fx65` LD Vx, [I] (FULL) -/
  | ldVxMem (x : RegIdx)
  deriving DecidableEq, Repr

end Sys2Proof
end

