-- ==== Sys2Proof/WellFormed.lean ====
section
/-! DEFINITION. When an instruction is well formed: the selected `ISA_PROFILE` admits it (spec/00_scope.md R3,
spec/30_encoding.md R95, R97). The operand ranges need no check: they are the operands' types (R23, R94). -/

namespace Sys2Proof

/-- The `profile` column of R97: the smallest profile that admits the instruction. -/
def Instr.profile : Instr → IsaProfile
  | .cls => .base
  | .ret => .base
  | .jp _ => .base
  | .call _ => .base
  | .seImm _ _ => .base
  | .sneImm _ _ => .base
  | .seReg _ _ => .base
  | .ldImm _ _ => .base
  | .addImm _ _ => .base
  | .ldReg _ _ => .base
  | .orReg _ _ => .base
  | .andReg _ _ => .base
  | .xorReg _ _ => .full
  | .addReg _ _ => .full
  | .subReg _ _ => .full
  | .shr _ _ => .full
  | .subn _ _ => .full
  | .shl _ _ => .full
  | .sneReg _ _ => .full
  | .ldI _ => .full
  | .jpV0 _ => .full
  | .rnd _ _ => .full
  | .drw _ _ _ => .full
  | .skp _ => .full
  | .sknp _ => .full
  | .ldVxDT _ => .full
  | .ldVxK _ => .full
  | .ldDTVx _ => .full
  | .ldSTVx _ => .full
  | .addIVx _ => .full
  | .ldFVx _ => .full
  | .ldBVx _ => .full
  | .ldMemVx _ => .full
  | .ldVxMem _ => .full

/-- "BASE rows are admitted by both profiles" (R97); a FULL row by FULL alone (R3). -/
def IsaProfile.admits : IsaProfile → IsaProfile → Bool
  | .full, _ => true
  | .base, .base => true
  | .base, .full => false

/-- The instruction is admitted by profile `p`. -/
def Instr.wellFormed (p : IsaProfile) (i : Instr) : Bool := p.admits i.profile

end Sys2Proof
end

