-- ==== Sys2Proof/Decode.lean ====
section
/-! DEFINITION. Decoding and encoding (spec/30_encoding.md): the fields of a word, the decoder of R96 over words and over
bytes, the opcode map of R97, and the encoder. The decoder is total; a word that no admitted row matches is rejected by name,
as `Illegal(op)`. -/

namespace Sys2Proof

/-! ### Fields of a word (R91, R12) -/

/-- `op[15:12]`, the instruction family. -/
def fieldFamily (op : Word) : BitVec 4 := op.extractLsb' 12 4

/-- `x = op[11:8]`. -/
def fieldX (op : Word) : RegIdx := (op.extractLsb' 8 4).toFin

/-- `y = op[7:4]`. -/
def fieldY (op : Word) : RegIdx := (op.extractLsb' 4 4).toFin

/-- `n = op[3:0]`. -/
def fieldN (op : Word) : BitVec 4 := op.extractLsb' 0 4

/-- `nn = op[7:0]`. -/
def fieldNN (op : Word) : Byte := op.extractLsb' 0 8

/-- `nnn = op[11:0]`. -/
def fieldNNN (op : Word) : Addr12 := op.extractLsb' 0 12

/-! ### The decoder (R95, R96) -/

/-- Family 0x8: the low nibble selects the operation (R96). -/
def decodeFamily8 (n : Nat) (x y : RegIdx) : Option Instr :=
  match n with
  | 0x0 => some (.ldReg x y)
  | 0x1 => some (.orReg x y)
  | 0x2 => some (.andReg x y)
  | 0x3 => some (.xorReg x y)
  | 0x4 => some (.addReg x y)
  | 0x5 => some (.subReg x y)
  | 0x6 => some (.shr x y)
  | 0x7 => some (.subn x y)
  | 0xE => some (.shl x y)
  | _   => none

/-- Family 0xE: the low byte selects the operation (R96). -/
def decodeFamilyE (nn : Nat) (x : RegIdx) : Option Instr :=
  match nn with
  | 0x9E => some (.skp x)
  | 0xA1 => some (.sknp x)
  | _    => none

/-- Family 0xF: the low byte selects the operation (R96). -/
def decodeFamilyF (nn : Nat) (x : RegIdx) : Option Instr :=
  match nn with
  | 0x07 => some (.ldVxDT x)
  | 0x0A => some (.ldVxK x)
  | 0x15 => some (.ldDTVx x)
  | 0x18 => some (.ldSTVx x)
  | 0x1E => some (.addIVx x)
  | 0x29 => some (.ldFVx x)
  | 0x33 => some (.ldBVx x)
  | 0x55 => some (.ldMemVx x)
  | 0x65 => some (.ldVxMem x)
  | _    => none

/-- The row of R97 that the word matches, with its operands, whatever the profile: R96 with every "FULL?" taken. -/
def decodeRow (op : Word) : Option Instr :=
  match (fieldFamily op).toNat with
  | 0x0 => if op = 0x00E0#16 then some .cls else if op = 0x00EE#16 then some .ret else none
  | 0x1 => some (.jp (fieldNNN op))
  | 0x2 => some (.call (fieldNNN op))
  | 0x3 => some (.seImm (fieldX op) (fieldNN op))
  | 0x4 => some (.sneImm (fieldX op) (fieldNN op))
  | 0x5 => if fieldN op = 0 then some (.seReg (fieldX op) (fieldY op)) else none
  | 0x6 => some (.ldImm (fieldX op) (fieldNN op))
  | 0x7 => some (.addImm (fieldX op) (fieldNN op))
  | 0x8 => decodeFamily8 (fieldN op).toNat (fieldX op) (fieldY op)
  | 0x9 => if fieldN op = 0 then some (.sneReg (fieldX op) (fieldY op)) else none
  | 0xA => some (.ldI (fieldNNN op))
  | 0xB => some (.jpV0 (fieldNNN op))
  | 0xC => some (.rnd (fieldX op) (fieldNN op))
  | 0xD => some (.drw (fieldX op) (fieldY op) (fieldN op).toFin)
  | 0xE => decodeFamilyE (fieldNN op).toNat (fieldX op)
  | 0xF => decodeFamilyF (fieldNN op).toNat (fieldX op)
  | _   => none

/-- What a word decodes to (R96): one admitted instruction, or `Illegal(op)`. -/
inductive Decoded where
  | instr (i : Instr)
  | illegal (op : Word)
  deriving DecidableEq, Repr

/-- `decode(op, profile)` (R95, R96): a row must match on every fixed bit and be admitted by the profile. -/
def decode (p : IsaProfile) (op : Word) : Decoded :=
  match decodeRow op with
  | some i => if i.wellFormed p then .instr i else .illegal op
  | none   => .illegal op

/-- `{hi, lo}`: the big-endian word of two bytes, the first at the lower address (R63). -/
def wordOfBytes (hi lo : Byte) : Word := hi ++ lo

/-- Why a sequence of bytes is no instruction. -/
inductive DecodeError where
  /-- fewer than the two bytes of an instruction (R90) -/
  | truncated
  /-- `Illegal(op)` (R96) -/
  | illegal (op : Word)
  deriving DecidableEq, Repr

/-- Decoding from bytes: one instruction from the first two bytes, with the bytes after it (R63, R90). -/
def decodeBytes (p : IsaProfile) : List Byte → Except DecodeError (Instr × List Byte)
  | hi :: lo :: rest =>
    match decode p (wordOfBytes hi lo) with
    | .instr i    => .ok (i, rest)
    | .illegal op => .error (.illegal op)
  | _ => .error .truncated

/-! ### The encoder, from the six formats of R92 -/

/-- A register index as the 4-bit field that holds it. -/
def regBits (x : RegIdx) : BitVec 4 := BitVec.ofFin x

/-- Format `addr`: `o n n n`. -/
def fmtAddr (family : BitVec 4) (nnn : Addr12) : Word := family ++ nnn

/-- Format `reg_imm`: `o x n n`. -/
def fmtRegImm (family : BitVec 4) (x : RegIdx) (nn : Byte) : Word := family ++ regBits x ++ nn

/-- Formats `reg_reg` (`o x y s`) and `reg_reg_nib` (`D x y n`). -/
def fmtRegReg (family : BitVec 4) (x y : RegIdx) (low : BitVec 4) : Word := family ++ regBits x ++ regBits y ++ low

/-- Format `reg`: `o x f f`. -/
def fmtReg (family : BitVec 4) (x : RegIdx) (function : Byte) : Word := family ++ regBits x ++ function

/-- The word of an instruction (R92, R97). -/
def encode : Instr → Word
  | .cls => 0x00E0#16
  | .ret => 0x00EE#16
  | .jp nnn => fmtAddr 0x1 nnn
  | .call nnn => fmtAddr 0x2 nnn
  | .seImm x nn => fmtRegImm 0x3 x nn
  | .sneImm x nn => fmtRegImm 0x4 x nn
  | .seReg x y => fmtRegReg 0x5 x y 0x0
  | .ldImm x nn => fmtRegImm 0x6 x nn
  | .addImm x nn => fmtRegImm 0x7 x nn
  | .ldReg x y => fmtRegReg 0x8 x y 0x0
  | .orReg x y => fmtRegReg 0x8 x y 0x1
  | .andReg x y => fmtRegReg 0x8 x y 0x2
  | .xorReg x y => fmtRegReg 0x8 x y 0x3
  | .addReg x y => fmtRegReg 0x8 x y 0x4
  | .subReg x y => fmtRegReg 0x8 x y 0x5
  | .shr x y => fmtRegReg 0x8 x y 0x6
  | .subn x y => fmtRegReg 0x8 x y 0x7
  | .shl x y => fmtRegReg 0x8 x y 0xE
  | .sneReg x y => fmtRegReg 0x9 x y 0x0
  | .ldI nnn => fmtAddr 0xA nnn
  | .jpV0 nnn => fmtAddr 0xB nnn
  | .rnd x nn => fmtRegImm 0xC x nn
  | .drw x y n => fmtRegReg 0xD x y (BitVec.ofFin n)
  | .skp x => fmtReg 0xE x 0x9E
  | .sknp x => fmtReg 0xE x 0xA1
  | .ldVxDT x => fmtReg 0xF x 0x07
  | .ldVxK x => fmtReg 0xF x 0x0A
  | .ldDTVx x => fmtReg 0xF x 0x15
  | .ldSTVx x => fmtReg 0xF x 0x18
  | .addIVx x => fmtReg 0xF x 0x1E
  | .ldFVx x => fmtReg 0xF x 0x29
  | .ldBVx x => fmtReg 0xF x 0x33
  | .ldMemVx x => fmtReg 0xF x 0x55
  | .ldVxMem x => fmtReg 0xF x 0x65

/-- The first byte of a word in memory (R63). -/
def highByte (op : Word) : Byte := op.extractLsb' 8 8

/-- The second byte of a word in memory (R63). -/
def lowByte (op : Word) : Byte := op.extractLsb' 0 8

/-- The bytes of an instruction in memory order (R63). -/
def encodeBytes (i : Instr) : List Byte := [highByte (encode i), lowByte (encode i)]

/-! ### The opcode map as a table (R97) -/

/-- One row of R97: `match`, `mask`, `profile`. -/
structure OpcodeRow where
  value   : Word
  mask    : Word
  profile : IsaProfile
  deriving DecidableEq, Repr

/-- `(op & mask) == match` (R95). -/
def OpcodeRow.selects (r : OpcodeRow) (op : Word) : Bool := op &&& r.mask == r.value

/-- Rows 1 to 12 of R97. -/
def baseRows : List OpcodeRow :=
  [⟨0x00E0, 0xFFFF, .base⟩, ⟨0x00EE, 0xFFFF, .base⟩, ⟨0x1000, 0xF000, .base⟩, ⟨0x2000, 0xF000, .base⟩,
   ⟨0x3000, 0xF000, .base⟩, ⟨0x4000, 0xF000, .base⟩, ⟨0x5000, 0xF00F, .base⟩, ⟨0x6000, 0xF000, .base⟩,
   ⟨0x7000, 0xF000, .base⟩, ⟨0x8000, 0xF00F, .base⟩, ⟨0x8001, 0xF00F, .base⟩, ⟨0x8002, 0xF00F, .base⟩]

/-- Rows 13 to 34 of R97. -/
def fullRows : List OpcodeRow :=
  [⟨0x8003, 0xF00F, .full⟩, ⟨0x8004, 0xF00F, .full⟩, ⟨0x8005, 0xF00F, .full⟩, ⟨0x8006, 0xF00F, .full⟩,
   ⟨0x8007, 0xF00F, .full⟩, ⟨0x800E, 0xF00F, .full⟩, ⟨0x9000, 0xF00F, .full⟩, ⟨0xA000, 0xF000, .full⟩,
   ⟨0xB000, 0xF000, .full⟩, ⟨0xC000, 0xF000, .full⟩, ⟨0xD000, 0xF000, .full⟩, ⟨0xE09E, 0xF0FF, .full⟩,
   ⟨0xE0A1, 0xF0FF, .full⟩, ⟨0xF007, 0xF0FF, .full⟩, ⟨0xF00A, 0xF0FF, .full⟩, ⟨0xF015, 0xF0FF, .full⟩,
   ⟨0xF018, 0xF0FF, .full⟩, ⟨0xF01E, 0xF0FF, .full⟩, ⟨0xF029, 0xF0FF, .full⟩, ⟨0xF033, 0xF0FF, .full⟩,
   ⟨0xF055, 0xF0FF, .full⟩, ⟨0xF065, 0xF0FF, .full⟩]

/-- The 34 rows of R97, in its order. -/
def opcodeTable : List OpcodeRow := baseRows ++ fullRows

/-! ### The opcode table's own numbering -/

/-- The instruction the decoder reads from an instruction whose bits are `w`, numbered as spec/opcode_table.json numbers them
(bit 0 the least significant bit of the first and only word). The word is laid out as memory holds it, high byte first (R63),
and decoded under profile FULL, which admits every row of the table (log entry 10). -/
def decodeTableWord (nbits w : Nat) : Option Instr :=
  let op := BitVec.ofNat 16 (w % 2 ^ nbits)
  match decodeBytes .full [highByte op, lowByte op] with
  | .ok (i, _) => some i
  | .error _   => none

end Sys2Proof
end

