-- ==== Sys2Proof/Machine/Defaults.lean ====
section
/-! DEFINITION. The configuration a core has at construction: the spec's defaults where it gives one (spec/00_scope.md R9,
spec/92_eei_decisions.md D4, D5, D25), and for the four OPEN parameters without a default a named choice (log entry 2). -/

namespace Sys2Proof.Machine

/-- The default `FONT_TABLE`, glyph `k` at bytes `5k..5k+4` (R31; general knowledge of the spec's, log entry 6). -/
def standardFont : FontTable := #v[
  0xF0, 0x90, 0x90, 0x90, 0xF0,  0x20, 0x60, 0x20, 0x20, 0x70,
  0xF0, 0x10, 0xF0, 0x80, 0xF0,  0xF0, 0x10, 0xF0, 0x10, 0xF0,
  0x90, 0x90, 0xF0, 0x10, 0x10,  0xF0, 0x80, 0xF0, 0x10, 0xF0,
  0xF0, 0x80, 0xF0, 0x90, 0xF0,  0xF0, 0x10, 0x20, 0x40, 0x40,
  0xF0, 0x90, 0xF0, 0x90, 0xF0,  0xF0, 0x90, 0xF0, 0x10, 0xF0,
  0xF0, 0x90, 0xF0, 0x90, 0x90,  0xE0, 0x90, 0xE0, 0x90, 0xE0,
  0xF0, 0x80, 0x80, 0x80, 0xF0,  0xE0, 0x90, 0x90, 0x90, 0xE0,
  0xF0, 0x80, 0xF0, 0x80, 0xF0,  0xF0, 0x80, 0xF0, 0x80, 0x80]

/-- The configuration at construction. `profile`, `illegalPolicy` and `fontTable` are the spec's defaults; the other four have
none, and the first value R9 lists for each is taken. DESIGN CHOICE, unsafe (log entry 2): no statement rests on it. -/
def defaultConfig : Config where
  profile       := .base
  illegalPolicy := .halt
  shiftSource   := .vy
  jumpOffsetReg := .v0
  ldstIncrement := .none
  drawEdge      := .clip
  fontTable     := standardFont

end Sys2Proof.Machine
end

