-- ==== Sys2Proof/Machine/State.lean ====
section
/-! DEFINITION. The state of the core (spec/10_state.md R20–R41), the reasons a step of the model can stop, and the state at
construction (spec/70_reset_and_hazards.md R340, R341). Plain data throughout. -/

namespace Sys2Proof.Machine

/-- Memory: the bytes that differ from the reset contents, as (address, byte) pairs in canonical form (`Memory.wf` in Ops.lean). -/
abbrev Memory := List Host.Cell

/-- The display buffer: 32 rows, top row first, of 64 on/off cells, left cell first (R32). Read through `getPixel`. -/
abbrev Display := Vector (Vector Bool 64) 32

/-- The fault register (R36). `code = 0` means no fault. -/
structure FaultReg where
  code   : BitVec 4
  opcode : Word
  pc     : Word
  deriving DecidableEq, Repr

/-- The illegal-opcode report (R38). -/
structure IllegalReport where
  seen   : Bool
  opcode : Word
  pc     : Word
  deriving DecidableEq, Repr

/-- Every state element of R40, and two fields of the model's own: `cfg`, the configuration, which no step changes (log entry
1), and `draws`, the number of random draws taken so far (log entry 5). -/
structure State where
  /-- `V0`..`VF` (R20) -/
  v              : Vector Byte 16
  /-- `I` (R26) -/
  i              : Word
  /-- `pc` (R24) -/
  pc             : Word
  /-- `stack[0..15]` (R27) -/
  stack          : Vector Word 16
  /-- `sp`, the number of live stack entries (R28) -/
  sp             : BitVec 5
  /-- `DT` (R29) -/
  dt             : Byte
  /-- `ST` (R30) -/
  st             : Byte
  /-- `mem[0x000..0xFFF]` (R31, R60) -/
  mem            : Memory
  /-- `disp` (R32) -/
  disp           : Display
  /-- `redraw_pending` (R33) -/
  redrawPending  : Bool
  /-- `keys[0..15]` (R34) -/
  keys           : Vector Bool 16
  /-- `blocking_input` (R35) -/
  blockingInput  : Bool
  /-- `blocking_target` (R35) -/
  blockingTarget : RegIdx
  /-- `fault_code`, `fault_opcode`, `fault_pc` (R36) -/
  fault          : FaultReg
  /-- `illegal_seen`, `illegal_opcode`, `illegal_pc` (R38) -/
  illegal        : IllegalReport
  /-- the configuration (R9, R31); the model's own field -/
  cfg            : Config
  /-- how many draws `Cxnn` has taken; the model's own field -/
  draws          : Nat
  deriving DecidableEq, Repr

/-- Why the MODEL stops where the spec gives no effect. The spec's own faults (R300) are no such stop: they are next states. -/
inductive Fault where
  /-- Raised by CALL and RET when `sp` is above 16, a value R28 calls unreachable and gives no effect for. Safe: the model stops
  where nothing is known (log entry 9). -/
  | stackPointerOutOfRange
  deriving DecidableEq, Repr

/-- Why a step has no meaning. -/
inductive Refusal where
  /-- Raised by an arm of `exec` for an instruction without a meaning yet; no arm raises it now. Safe. -/
  | notModelled (mnemonic : String)
  deriving DecidableEq, Repr

/-- The state at construction of a core with configuration `cfg` that has taken `draws` random draws (R340, R341). -/
def State.fresh (cfg : Config) (draws : Nat) : State where
  v              := Vector.replicate 16 0
  i              := 0
  pc             := 0x200
  stack          := Vector.replicate 16 0
  sp             := 0
  dt             := 0
  st             := 0
  mem            := []
  disp           := Vector.replicate 32 (Vector.replicate 64 false)
  redrawPending  := false
  keys           := Vector.replicate 16 false
  blockingInput  := false
  blockingTarget := 0
  fault          := { code := 0, opcode := 0, pc := 0 }
  illegal        := { seen := false, opcode := 0, pc := 0 }
  cfg            := cfg
  draws          := draws

/-- The machine right after reset (R340), with the configuration of `Defaults.lean`. -/
def State.reset : State := State.fresh defaultConfig 0

end Sys2Proof.Machine
end

