-- ==== Sys2Proof/Machine/Ops.lean ====
section
/-! DEFINITION. The named operations over registers, memory, the call stack, the display and the timers, and the entry of a
fault with the one way out of it. -/

namespace Sys2Proof.Machine

/-- What a meaning answers. -/
abbrev Result := Host.Outcome State Fault Refusal

/-! ### General registers and the program counter (R20, R24) -/

/-- `V[x]`. -/
def getV (s : State) (x : RegIdx) : Byte := s.v[x.val]

/-- `V[x] <- b`. -/
def setV (s : State) (x : RegIdx) (b : Byte) : State := { s with v := s.v.set x.val b }

/-- The provisional advance `pc <- A + 2`, made right after the fetch (R123). -/
def advance (s : State) : State := { s with pc := s.pc + 2 }

/-- `pc <- target`. -/
def jumpTo (s : State) (target : Word) : State := { s with pc := target }

/-- `I <- w` (R26). -/
def setI (s : State) (w : Word) : State := { s with i := w }

/-! ### Memory (spec/20_memory.md) -/

/-- The first address above memory (R60). -/
def memSize : Nat := 0x1000

/-- Where the writable region and the program begin (R61). -/
def programBase : Nat := 0x200

/-- What a byte that memory does not list reads as: its reset contents, the font below 0x050 and zero above (R31). -/
def unlistedByte (font : FontTable) (a : Nat) : Byte := font.toList.getD a 0

/-- The byte at address `a`. -/
def memRead (font : FontTable) (m : Memory) (a : Nat) : Byte :=
  match m with
  | [] => unlistedByte font a
  | c :: rest => if c.1 = a then c.2 else memRead font rest a

/-- The list with a cell for `a`, in address order, in place of any it held. -/
def memInsert (m : Memory) (a : Nat) (b : Byte) : Memory :=
  match m with
  | [] => [(a, b)]
  | c :: rest =>
    if c.1 < a then c :: memInsert rest a b
    else if c.1 = a then (a, b) :: rest
    else (a, b) :: c :: rest

/-- The list without a cell for `a`. -/
def memErase (m : Memory) (a : Nat) : Memory := m.filter (fun c => c.1 != a)

/-- `mem[a] <- b`, keeping the canonical form. -/
def memWrite (font : FontTable) (m : Memory) (a : Nat) (b : Byte) : Memory :=
  if b = unlistedByte font a then memErase m a else memInsert m a b

/-- The canonical form: addresses strictly rising, all inside memory, no entry equal to what an unlisted address reads as. -/
abbrev Memory.wf (font : FontTable) (m : Memory) : Prop :=
  m.Pairwise (fun c d => c.1 < d.1) ∧ ∀ c ∈ m, c.1 < memSize ∧ c.2 ≠ unlistedByte font c.1

/-- `mem[a]` of a state. -/
def readByte (s : State) (a : Nat) : Byte := memRead s.cfg.fontTable s.mem a

/-- `mem[a] <- b` in a state, with no check (R136 uses it so; a store is checked first by `checkWrites`). -/
def writeByte (s : State) (a : Nat) (b : Byte) : State := { s with mem := memWrite s.cfg.fontTable s.mem a b }

/-- Bytes written one after another from address `a` upward. -/
def writeBytes (s : State) (a : Nat) : List Byte → State
  | [] => s
  | b :: bs => writeBytes (writeByte s a b) (a + 1) bs

/-! ### Faults (spec/60_exceptions.md) -/

/-- The faults of R300. -/
inductive CoreFault where
  | illegalInstruction
  | stackOverflow
  | stackUnderflow
  | fetchOutOfRange
  | memoryOutOfRange
  | writeProtected
  | operandOutOfRange
  deriving DecidableEq, Repr

/-- `code(F)` (R300). -/
def faultCode : CoreFault → BitVec 4
  | .illegalInstruction => 1
  | .stackOverflow      => 2
  | .stackUnderflow     => 3
  | .fetchOutOfRange    => 4
  | .memoryOutOfRange   => 5
  | .writeProtected     => 6
  | .operandOutOfRange  => 7

/-- Fault entry (R310). `s` is the state at the START of the step, whose `pc` is still the fetch address `A`, so everything the
step wrote is undone; then the fault register records the code, the word and `A`. No vector, no handler, no mode. -/
def takeFault (f : CoreFault) (w : Word) (s : State) : State :=
  { s with fault := { code := faultCode f, opcode := w, pc := s.pc } }

/-- `raise F(op)` (R11): the step ends in the fault's next state. -/
def raise (f : CoreFault) (w : Word) (s : State) : Result := .next (takeFault f w s)

/-- The illegal-opcode report under policy NOP (R38, R301): the most recent illegal word and its fetch address. -/
def reportIllegal (s : State) (op a : Word) : State := { s with illegal := { seen := true, opcode := op, pc := a } }

/-- The core is halted (R37). -/
def halted (s : State) : Bool := s.fault.code != 0

/-- `reset()` (R340), the only way out of the halted state (R312): every state element at its reset value. The configuration
stays (R342), and the model's count of draws goes on, so that a draw after a reset is a new one (log entry 12). -/
def resetCore (s : State) : State := State.fresh s.cfg s.draws

/-! ### Checks of data addresses (R62, R66, R67) -/

/-- `check_write(a)` (R243): range before protection. -/
def checkWrite (a : Nat) : Option CoreFault :=
  if memSize ≤ a then some .memoryOutOfRange
  else if a < programBase then some .writeProtected
  else none

/-- The first fault of `check_write` over `a, a+1, …, a+n-1`, in ascending order (R243, R244, R313). -/
def checkWrites (a : Nat) : Nat → Option CoreFault
  | 0 => none
  | n + 1 =>
    match checkWrite a with
    | some f => some f
    | none => checkWrites (a + 1) n

/-- The range check of a read of `n` bytes from `a` (R66, R245, R261): nothing to check when `n` is 0. -/
def checkReads (a n : Nat) : Option CoreFault :=
  if 0 < n ∧ memSize ≤ a + n - 1 then some .memoryOutOfRange else none

/-! ### Call stack (R27, R28) -/

/-- `stack[sp] <- ret; sp <- sp + 1`, for a `sp` below 16. -/
def pushReturn (s : State) (ret : Word) : State :=
  { s with stack := s.stack.setIfInBounds s.sp.toNat ret, sp := s.sp + 1 }

/-- `stack[k]`, for a `k` below 16. -/
def stackEntry (s : State) (k : Nat) : Word := s.stack.toList.getD k 0

/-- `sp <- sp - 1`; the popped entry keeps its value (R27). -/
def popSp (s : State) : State := { s with sp := s.sp - 1 }

/-! ### Display (R32) -/

/-- `disp[x][y]`: column `x`, row `y`. -/
def getPixel (d : Display) (x : Fin 64) (y : Fin 32) : Bool := d[y.val][x.val]

/-- `disp[x][y] <- b`. -/
def setPixel (d : Display) (x : Fin 64) (y : Fin 32) (b : Bool) : Display := d.set y.val (d[y.val].set x.val b)

/-- Every cell 0. -/
def blankDisplay : Display := Vector.replicate 32 (Vector.replicate 64 false)

/-- The display after an instruction that writes it; `redraw_pending` is set in any case (R33, R150, R261, D14). -/
def setDisplay (s : State) (d : Display) : State := { s with disp := d, redrawPending := true }

/-! ### Timers (R29, R30, R125) -/

/-- `DT <- b`. -/
def setDT (s : State) (b : Byte) : State := { s with dt := b }

/-- `ST <- b`. -/
def setST (s : State) (b : Byte) : State := { s with st := b }

/-- One timer's decrement, floor at zero. -/
def decrementTimer (t : Byte) : Byte := if t = 0 then 0 else t - 1

/-- `timer_decrement()` (R125). -/
def decrementTimers (s : State) : State := { s with dt := decrementTimer s.dt, st := decrementTimer s.st }

/-! ### The random draw (R260) -/

/-- The next draw of the run: a free value (log entry 5). -/
def nextDraw (s : State) : Byte := Config.drawRand8 s.draws

/-- The draw is taken: the one after it is another. -/
def countDraw (s : State) : State := { s with draws := s.draws + 1 }

/-! ### Keys and the key-wait (R34, R35, R127) -/

/-- Enter the key-wait for `V[x]` (R263). -/
def enterWait (s : State) (x : RegIdx) : State := { s with blockingInput := true, blockingTarget := x }

/-- Leave the key-wait: the flag clears, and the target slot with it (R127, D47). -/
def leaveWait (s : State) : State := { s with blockingInput := false, blockingTarget := 0 }

/-- The smallest key index whose latch is 1, if any. -/
def lowestKeyDown (s : State) : Option KeyIdx := (List.finRange 16).find? (fun k => s.keys[k.val])

end Sys2Proof.Machine
end

