-- ==== Sys2Proof/Machine/Operands.lean ====
section
/-! DEFINITION. The operand forms: immediates, the skip, the shift source, the jump offset, the index operand of a key or a
glyph, the register range of Fx55 and Fx65, and the index update after them. -/

namespace Sys2Proof.Machine

/-- `zext_16(nnn)` (R93). -/
def zextAddr (nnn : Addr12) : Word := nnn.setWidth 16

/-- `zext_16` of a register's value (R222, R241). -/
def zextByte (b : Byte) : Word := b.setWidth 16

/-- "Skip next instruction" (R128): a further `pc <- pc + 2` when the condition holds. -/
def skipIf (c : Bool) (s : State) : State := if c then { s with pc := s.pc + 2 } else s

/-- The operand of `8xy6` and `8xyE` (R204, R206), per `SHIFT_SOURCE`. -/
def shiftOperand (s : State) (x y : RegIdx) : Byte :=
  match s.cfg.shiftSource with
  | .vy => getV s y
  | .vx => getV s x

/-- `x = nnn[11:8]`, the offset register of `Bnnn` when `JUMP_OFFSET_REG = VX` (R222). -/
def addrHighNibble (nnn : Addr12) : RegIdx := (nnn.extractLsb' 8 4).toFin

/-- The offset that `Bnnn` adds (R222), per `JUMP_OFFSET_REG`. -/
def jumpOffset (s : State) (nnn : Addr12) : Byte :=
  match s.cfg.jumpOffsetReg with
  | .v0 => getV s 0
  | .vx => getV s (addrHighNibble nnn)

/-- A register value used as the index of a key or a glyph (R221, R242): above 0x0F it names none. -/
def indexOperand (b : Byte) : Option (Fin 16) := if h : b.toNat < 16 then some ⟨b.toNat, h⟩ else none

/-- The registers `V0..V[x]` in ascending order (R244, R245). -/
def regsUpTo (x : RegIdx) : List RegIdx := (List.finRange 16).filter (fun k => k.val ≤ x.val)

/-- `for k in 0..x: V[k] <- mem[I + k]` (R245), over the registers of a list. -/
def loadRegs (s : State) (base : Nat) : List RegIdx → State
  | [] => s
  | k :: ks => loadRegs (setV s k (readByte s (base + k.val))) base ks

/-- `i_after(I, x)` (R246), per `LDST_I_INCREMENT`. -/
def indexAfter (s : State) (x : RegIdx) : Word :=
  match s.cfg.ldstIncrement with
  | .none   => s.i
  | .xPlus1 => s.i + BitVec.ofNat 16 (x.val + 1)
  | .x      => s.i + BitVec.ofNat 16 x.val

/-- `v div 100`, `(v div 10) mod 10`, `v mod 10` (R243). -/
def bcdDigits (v : Byte) : List Byte := [v / 100, (v / 10) % 10, v % 10]

end Sys2Proof.Machine
end

