-- ==== Sys2Proof/Machine/Flags.lean ====
section
/-! DEFINITION. The flag values that an instruction writes to `VF` (spec/10_state.md R22), and the order of the result and the
flag (spec/44_ext_alu.md R200). A flag is always 0x00 or 0x01. -/

namespace Sys2Proof.Machine

/-- A condition as a flag byte. -/
def flagByte (c : Bool) : Byte := if c then 1 else 0

/-- Carry out of bit 7 of `a + b` (R202). -/
def carryFlag (a b : Byte) : Byte := flagByte (decide (255 < a.toNat + b.toNat))

/-- Not borrow of `a - b`: 1 when `a >= b` (R203, R205). -/
def noBorrowFlag (a b : Byte) : Byte := flagByte (decide (b.toNat ≤ a.toNat))

/-- The bit that a right shift moves out: `s[0]` (R204). -/
def shiftRightFlag (b : Byte) : Byte := flagByte (b.getLsbD 0)

/-- The bit that a left shift moves out: `s[7]` (R206). -/
def shiftLeftFlag (b : Byte) : Byte := flagByte (b.getLsbD 7)

/-- The result to `V[x]` first, the flag to `VF` second (R200, D17). -/
def setResultThenFlag (s : State) (x : RegIdx) (result flag : Byte) : State := setV (setV s x result) 0xF flag

end Sys2Proof.Machine
end

