-- ==== Sys2Proof/Machine/Alu.lean ====
section
/-! DEFINITION. Register loads and the ALU: 6xnn, 7xnn, 8xy0 to 8xy7, 8xyE (spec/43_alu.md, spec/44_ext_alu.md). A meaning is
entered with `s.pc` still at the fetch address `A` and makes the provisional advance itself (log entry 4); every operand is read
from `s`, before anything is written. None of these raises a fault. -/

namespace Sys2Proof.Machine

/-- LD Vx, nn (R180). -/
def execLdImm (x : RegIdx) (nn : Byte) (s : State) : Result := .next (setV (advance s) x nn)

/-- ADD Vx, nn (R181): modulo 256, no flag. -/
def execAddImm (x : RegIdx) (nn : Byte) (s : State) : Result := .next (setV (advance s) x (getV s x + nn))

/-- LD Vx, Vy (R182). -/
def execLdReg (x y : RegIdx) (s : State) : Result := .next (setV (advance s) x (getV s y))

/-- OR Vx, Vy (R183): no flag (D22). -/
def execOrReg (x y : RegIdx) (s : State) : Result := .next (setV (advance s) x (getV s x ||| getV s y))

/-- AND Vx, Vy (R184): no flag (D22). -/
def execAndReg (x y : RegIdx) (s : State) : Result := .next (setV (advance s) x (getV s x &&& getV s y))

/-- XOR Vx, Vy (R201): no flag (D22). -/
def execXorReg (x y : RegIdx) (s : State) : Result := .next (setV (advance s) x (getV s x ^^^ getV s y))

/-- ADD Vx, Vy (R202): `VF` is the carry. -/
def execAddReg (x y : RegIdx) (s : State) : Result :=
  .next (setResultThenFlag (advance s) x (getV s x + getV s y) (carryFlag (getV s x) (getV s y)))

/-- SUB Vx, Vy (R203): `VF` is not-borrow. -/
def execSubReg (x y : RegIdx) (s : State) : Result :=
  .next (setResultThenFlag (advance s) x (getV s x - getV s y) (noBorrowFlag (getV s x) (getV s y)))

/-- SHR Vx, Vy (R204): `VF` is the bit shifted out. -/
def execShr (x y : RegIdx) (s : State) : Result :=
  .next (setResultThenFlag (advance s) x (shiftOperand s x y >>> 1) (shiftRightFlag (shiftOperand s x y)))

/-- SUBN Vx, Vy (R205): `VF` is not-borrow of `V[y] - V[x]`. -/
def execSubn (x y : RegIdx) (s : State) : Result :=
  .next (setResultThenFlag (advance s) x (getV s y - getV s x) (noBorrowFlag (getV s y) (getV s x)))

/-- SHL Vx, Vy (R206): `VF` is the bit shifted out. -/
def execShl (x y : RegIdx) (s : State) : Result :=
  .next (setResultThenFlag (advance s) x (shiftOperand s x y <<< 1) (shiftLeftFlag (shiftOperand s x y)))

end Sys2Proof.Machine
end

