-- ==== Sys2Proof/Machine/Control.lean ====
section
/-! DEFINITION. Control transfer and skips: 00EE, 1nnn, 2nnn, 3xnn, 4xnn, 5xy0, 9xy0, Bnnn, Ex9E, ExA1 (spec/42_control.md,
spec/45_ext_control.md). A meaning is entered with `s.pc` still at the fetch address `A` (log entry 4); a fault is taken at `s`
itself, so nothing of the step survives (R121). -/

namespace Sys2Proof.Machine

/-- RET (R160). A `sp` above 16 is no value the spec gives an effect for (log entry 9). -/
def execRet (s : State) : Result :=
  if s.sp = 0 then raise .stackUnderflow (encode .ret) s
  else if 16 < s.sp.toNat then .fault .stackPointerOutOfRange
  else .next (jumpTo (popSp (advance s)) (stackEntry s (s.sp.toNat - 1)))

/-- JP nnn (R161). -/
def execJp (nnn : Addr12) (s : State) : Result := .next (jumpTo (advance s) (zextAddr nnn))

/-- CALL nnn (R162): the return address is the advanced `pc`, `A + 2`. A `sp` above 16 as for RET (log entry 9). -/
def execCall (nnn : Addr12) (s : State) : Result :=
  if s.sp = 16 then raise .stackOverflow (encode (.call nnn)) s
  else if 16 < s.sp.toNat then .fault .stackPointerOutOfRange
  else .next (jumpTo (pushReturn (advance s) (advance s).pc) (zextAddr nnn))

/-- SE Vx, nn (R163). -/
def execSeImm (x : RegIdx) (nn : Byte) (s : State) : Result := .next (skipIf (getV s x == nn) (advance s))

/-- SNE Vx, nn (R164). -/
def execSneImm (x : RegIdx) (nn : Byte) (s : State) : Result := .next (skipIf (getV s x != nn) (advance s))

/-- SE Vx, Vy (R165). -/
def execSeReg (x y : RegIdx) (s : State) : Result := .next (skipIf (getV s x == getV s y) (advance s))

/-- SNE Vx, Vy (R220). -/
def execSneReg (x y : RegIdx) (s : State) : Result := .next (skipIf (getV s x != getV s y) (advance s))

/-- JP V0, nnn (R222): the sum is not reduced modulo 4096. -/
def execJpV0 (nnn : Addr12) (s : State) : Result :=
  .next (jumpTo (advance s) (zextAddr nnn + zextByte (jumpOffset s nnn)))

/-- SKP Vx (R223): the operand check of R221 first. -/
def execSkp (x : RegIdx) (s : State) : Result :=
  match indexOperand (getV s x) with
  | none   => raise .operandOutOfRange (encode (.skp x)) s
  | some k => .next (skipIf s.keys[k.val] (advance s))

/-- SKNP Vx (R224): the operand check of R221 first. -/
def execSknp (x : RegIdx) (s : State) : Result :=
  match indexOperand (getV s x) with
  | none   => raise .operandOutOfRange (encode (.sknp x)) s
  | some k => .next (skipIf (!s.keys[k.val]) (advance s))

end Sys2Proof.Machine
end

