-- ==== Sys2Proof/Machine/Graphics.lean ====
section
/-! DEFINITION. The display instructions: 00E0 and Dxyn (spec/41_display.md R150, spec/47_ext_display_timers_input.md R261). -/

namespace Sys2Proof.Machine

/-- CLS (R150): the flag is set whatever the display held (D14). -/
def execCls (s : State) : Result := .next (setDisplay (advance s) blankDisplay)

/-- The cell that sprite pixel (`px`, `py`) falls on, or none when it is clipped (R261, `DRAW_EDGE`). -/
def drawCell (edge : DrawEdge) (px py : Nat) : Option (Fin 64 × Fin 32) :=
  if edge = .clip ∧ (63 < px ∨ 31 < py) then none
  else some (⟨px % 64, Nat.mod_lt _ (by decide)⟩, ⟨py % 32, Nat.mod_lt _ (by decide)⟩)

/-- One set sprite bit at (`px`, `py`): `hit` when the cell was 1, and the cell inverted (R261). -/
def drawPixel (edge : DrawEdge) (px py : Nat) (acc : Display × Bool) : Display × Bool :=
  match drawCell edge px py with
  | none => acc
  | some (x, y) => (setPixel acc.1 x y (!getPixel acc.1 x y), acc.2 || getPixel acc.1 x y)

/-- The columns `c, c+1, …, 7` of one sprite row `b` at (`x0`, `py`); bit `7 - c` is column `c` (R261). `left` is how many
columns are left. -/
def drawRow (edge : DrawEdge) (x0 py : Nat) (b : Byte) (left : Nat) (acc : Display × Bool) : Display × Bool :=
  match left with
  | 0 => acc
  | k + 1 =>
    let c := 7 - k
    drawRow edge x0 py b k (if b.getLsbD (7 - c) then drawPixel edge (x0 + c) py acc else acc)

/-- The rows of a sprite, from row `r` on: the byte of row `r` stands at `I + r` (R261). -/
def drawRows (s : State) (x0 y0 r : Nat) (left : Nat) (acc : Display × Bool) : Display × Bool :=
  match left with
  | 0 => acc
  | k + 1 =>
    drawRows s x0 y0 (r + 1) k (drawRow s.cfg.drawEdge x0 (y0 + r) (readByte s (s.i.toNat + r)) 8 acc)

/-- The display and the `hit` flag after the whole sprite of Dxyn (R261): the start coordinates are reduced first. -/
def drawSprite (x y : RegIdx) (n : Fin 16) (s : State) : Display × Bool :=
  drawRows s ((getV s x).toNat % 64) ((getV s y).toNat % 32) 0 n.val (s.disp, false)

/-- DRW Vx, Vy, n (R261): `VF` is written after the drawing, `redraw_pending` is set in any case (D14). -/
def execDrw (x y : RegIdx) (n : Fin 16) (s : State) : Result :=
  match checkReads s.i.toNat n.val with
  | some f => raise f (encode (.drw x y n)) s
  | none   =>
    .next (setV (setDisplay (advance s) (drawSprite x y n s).1) 0xF (flagByte (drawSprite x y n s).2))

end Sys2Proof.Machine
end

