-- ==== Sys2Proof/Machine/Index.lean ====
section
/-! DEFINITION. The index register and the loads and stores: Annn, Fx1E, Fx29, Fx33, Fx55, Fx65 (spec/46_ext_index_memory.md).
Addresses are formed as natural numbers from `I`, without wrap (R62); every address of a sequence is checked before anything is
written (R68). -/

namespace Sys2Proof.Machine

/-- LD I, nnn (R240). -/
def execLdI (nnn : Addr12) (s : State) : Result := .next (setI (advance s) (zextAddr nnn))

/-- ADD I, Vx (R241): modulo 2^16, `VF` unchanged (D21). -/
def execAddIVx (x : RegIdx) (s : State) : Result := .next (setI (advance s) (s.i + zextByte (getV s x)))

/-- LD F, Vx (R242): glyph `k` stands at `5k`. -/
def execLdFVx (x : RegIdx) (s : State) : Result :=
  match indexOperand (getV s x) with
  | none   => raise .operandOutOfRange (encode (.ldFVx x)) s
  | some k => .next (setI (advance s) (BitVec.ofNat 16 (5 * k.val)))

/-- LD B, Vx (R243). -/
def execLdBVx (x : RegIdx) (s : State) : Result :=
  match checkWrites s.i.toNat 3 with
  | some f => raise f (encode (.ldBVx x)) s
  | none   => .next (writeBytes (advance s) s.i.toNat (bcdDigits (getV s x)))

/-- LD [I], Vx (R244). -/
def execLdMemVx (x : RegIdx) (s : State) : Result :=
  match checkWrites s.i.toNat (x.val + 1) with
  | some f => raise f (encode (.ldMemVx x)) s
  | none   => .next (setI (writeBytes (advance s) s.i.toNat ((regsUpTo x).map (getV s))) (indexAfter s x))

/-- LD Vx, [I] (R245). -/
def execLdVxMem (x : RegIdx) (s : State) : Result :=
  match checkReads s.i.toNat (x.val + 1) with
  | some f => raise f (encode (.ldVxMem x)) s
  | none   => .next (setI (loadRegs (advance s) s.i.toNat (regsUpTo x)) (indexAfter s x))

end Sys2Proof.Machine
end

