-- ==== Sys2Proof/Machine/Timers.lean ====
section
/-! DEFINITION. Random, timers and key-wait: Cxnn, Fx07, Fx0A, Fx15, Fx18 (spec/47_ext_display_timers_input.md). The timer
decrement of the same tick follows in `Cycle.lean` (R126). -/

namespace Sys2Proof.Machine

/-- RND Vx, nn (R260): the draw is a free value, the next one of the run (log entry 5). -/
def execRnd (x : RegIdx) (nn : Byte) (s : State) : Result :=
  .next (setV (countDraw (advance s)) x (nextDraw s &&& nn))

/-- LD Vx, DT (R262): the value before this tick's decrement. -/
def execLdVxDT (x : RegIdx) (s : State) : Result := .next (setV (advance s) x s.dt)

/-- LD Vx, K (R263): enter the key-wait; `pc` stays at `A`, and the keys are not examined in this tick. -/
def execLdVxK (x : RegIdx) (s : State) : Result := .next (enterWait s x)

/-- LD DT, Vx (R264). -/
def execLdDTVx (x : RegIdx) (s : State) : Result := .next (setDT (advance s) (getV s x))

/-- LD ST, Vx (R265). -/
def execLdSTVx (x : RegIdx) (s : State) : Result := .next (setST (advance s) (getV s x))

end Sys2Proof.Machine
end

