-- ==== Sys2Proof/Machine/Cycle.lean ====
section
/-! DEFINITION. The execution cycle (spec/40_execution_cycle.md R120–R127): the fetch, the illegal word, the key-wait poll, the
step and the tick. -/

namespace Sys2Proof.Machine

/-- `{mem[A], mem[A+1]}`, big-endian (R63). -/
def wordAt (s : State) (a : Nat) : Word := wordOfBytes (readByte s a) (readByte s (a + 1))

/-- `fetch(A)` (R64, R123): none when the second byte would stand above 0xFFF. -/
def fetch (s : State) : Option Word := if memSize ≤ s.pc.toNat + 1 then none else some (wordAt s s.pc.toNat)

/-- `execute(Illegal(op), A, op)` (R301), per `ILLEGAL_OPCODE_POLICY`. -/
def execIllegal (op : Word) (s : State) : Result :=
  match s.cfg.illegalPolicy with
  | .halt => raise .illegalInstruction op s
  | .nop  => .next (reportIllegal (advance s) op s.pc)

/-- `key_poll()` (R127). -/
def keyPoll (s : State) : State :=
  match lowestKeyDown s with
  | some k => advance (leaveWait (setV s s.blockingTarget (BitVec.ofNat 8 k.val)))
  | none => s

/-- Fetch, decode, execute (R122, R123, R124): the part of `step()` outside a key-wait. -/
def fetchExecute (s : State) : Result :=
  match fetch s with
  | none => raise .fetchOutOfRange 0x0000 s
  | some op =>
    match decode s.cfg.profile op with
    | .instr i    => exec i s
    | .illegal op => execIllegal op s

/-- `step()` (R122). -/
def coreStep (s : State) : Result := if s.blockingInput then .next (keyPoll s) else fetchExecute s

/-- The end of a tick: the timer decrement on whatever state the step left (R120). -/
def thenTimers : Result → Result
  | .next t    => .next (decrementTimers t)
  | .fault f   => .fault f
  | .refused r => .refused r

/-- `tick()` (R120): a halted core performs no step; the timers are decremented in any case. -/
def tick (s : State) : Result := thenTimers (if halted s then .next s else coreStep s)

/-- A state whose next tick fetches: not halted, not in a key-wait, `pc` inside memory. Any other state is changed no further
than that (log entry 10). -/
def readyToFetch (s : State) : State :=
  { s with
    fault := if halted s then { code := 0, opcode := 0, pc := 0 } else s.fault
    blockingInput := false
    blockingTarget := if s.blockingInput then 0 else s.blockingTarget
    pc := if memSize ≤ s.pc.toNat + 1 then 0x200 else s.pc }

/-- The profile under which `op` is fetched: the state's own, or FULL where only FULL admits the word (log entry 10). -/
def profileFor (op : Word) (s : State) : IsaProfile :=
  match decode s.cfg.profile op, decode .full op with
  | .illegal _, .instr _ => .full
  | _, _ => s.cfg.profile

/-- `op` placed where the next tick of `s` fetches. -/
def placeWord (op : Word) (s : State) : State :=
  let r := readyToFetch { s with cfg := { s.cfg with profile := profileFor op s } }
  writeBytes r r.pc.toNat [highByte op, lowByte op]

end Sys2Proof.Machine
end

