-- ==== Sys2Proof/Machine/Step.lean ====
section
/-! DEFINITION. One step of the model is one tick of the core (spec/40_execution_cycle.md R120; log entry 3), and the placing of
an instruction word where the next step fetches it. -/

namespace Sys2Proof.Machine

/-- The core's only transition driven by execution (R120). -/
def step (s : State) : Host.Outcome State Fault Refusal := tick s

/-- `s` with the instruction whose bits are `w` (numbered as spec/opcode_table.json numbers them) where `step` fetches next. -/
def State.withFetchWord (s : State) (nbits w : Nat) : State := placeWord (BitVec.ofNat 16 (w % 2 ^ nbits)) s

end Sys2Proof.Machine
end

