-- ==== Sys2Proof/Machine/HostOps.lean ====
section
/-! DEFINITION. The host operations (spec/40_execution_cycle.md R135–R139, spec/70_reset_and_hazards.md R340): each one
indivisible event between ticks. `reset()` is `resetCore` of Ops.lean. -/

namespace Sys2Proof.Machine

/-- What `load` is given (R136): the bytes of an image, or a source that cannot be read. -/
inductive Image where
  | bytes (b : List Byte)
  | unreadable
  deriving DecidableEq, Repr

/-- What `load` answers (R136). -/
inductive LoadAnswer where
  | count (m : Nat)
  | loadFailure
  deriving DecidableEq, Repr

/-- The largest program: 4096 - 0x200 = 3584 bytes (R8). -/
def maxProgram : Nat := 3584

/-- `load(image)` (R136): as many bytes as fit, from 0x200 upward, and nothing else. -/
def loadImage (image : Image) (s : State) : LoadAnswer × State :=
  match image with
  | .unreadable => (.loadFailure, s)
  | .bytes b    => (.count (min b.length maxProgram), writeBytes s programBase (b.take maxProgram))

/-- `set_key(k, b)` (R137). -/
def setKey (k : KeyIdx) (b : Bool) (s : State) : State := { s with keys := s.keys.set k.val b }

/-- `ack_redraw()` (R138). -/
def ackRedraw (s : State) : State := { s with redrawPending := false }

/-- A display cell as the host sees it: 0x00 or 0x01 (R32). -/
def displayByte (s : State) (x : Fin 64) (y : Fin 32) : Byte := if getPixel s.disp x y then 1 else 0

/-- What the host may read between ticks (R40, R139). -/
structure HostView where
  disp           : Display
  redrawPending  : Bool
  dt             : Byte
  st             : Byte
  blockingInput  : Bool
  blockingTarget : RegIdx
  fault          : FaultReg
  illegal        : IllegalReport
  deriving DecidableEq, Repr

/-- The reads of R139. A read changes nothing. -/
def hostView (s : State) : HostView where
  disp           := s.disp
  redrawPending  := s.redrawPending
  dt             := s.dt
  st             := s.st
  blockingInput  := s.blockingInput
  blockingTarget := s.blockingTarget
  fault          := s.fault
  illegal        := s.illegal

/-- The host's beep is its own reading of `ST > 0` (R139, D45). -/
def soundOn (s : State) : Bool := s.st != 0

/-- The events of R135 that change the core. -/
inductive HostEvent where
  | tick
  | reset
  | load (image : Image)
  | setKey (k : KeyIdx) (b : Bool)
  | ackRedraw
  deriving DecidableEq, Repr

/-- One event (R135). Events are totally ordered and never overlap (R74). -/
def applyEvent (e : HostEvent) (s : State) : Result :=
  match e with
  | .tick       => step s
  | .reset      => .next (resetCore s)
  | .load image => .next (loadImage image s).2
  | .setKey k b => .next (setKey k b s)
  | .ackRedraw  => .next (ackRedraw s)

end Sys2Proof.Machine
end

