-- ==== Sys2Proof/Safety.lean ====
section
/-! DEFINITION. The terms that statements about the core use: the state elements and what a change leaves alone, fault entry,
which fault an instruction raises, the rows of the opcode map, the cells a sprite covers, the terminal classes of a state, and
the invariant of every reachable state. -/

namespace Sys2Proof.Machine

/-! ### Frames -/

/-- The state elements of R40, and the model's own `cfg` and `draws`. -/
inductive Elem where
  | v (k : RegIdx)
  | i
  | pc
  | stack (k : Fin 16)
  | sp
  | dt
  | st
  | mem (a : Nat)
  | disp (x : Fin 64) (y : Fin 32)
  | redrawPending
  | keys (k : KeyIdx)
  | blockingInput
  | blockingTarget
  | faultCode
  | faultOpcode
  | faultPc
  | illegalSeen
  | illegalOpcode
  | illegalPc
  | cfg
  | draws
  deriving DecidableEq, Repr

/-- The element has the same value in both states; a byte of memory is what reading its address gives. -/
def Elem.same (s t : State) : Elem → Prop
  | .v k            => getV t k = getV s k
  | .i              => t.i = s.i
  | .pc             => t.pc = s.pc
  | .stack k        => t.stack[k.val] = s.stack[k.val]
  | .sp             => t.sp = s.sp
  | .dt             => t.dt = s.dt
  | .st             => t.st = s.st
  | .mem a          => readByte t a = readByte s a
  | .disp x y       => getPixel t.disp x y = getPixel s.disp x y
  | .redrawPending  => t.redrawPending = s.redrawPending
  | .keys k         => t.keys[k.val] = s.keys[k.val]
  | .blockingInput  => t.blockingInput = s.blockingInput
  | .blockingTarget => t.blockingTarget = s.blockingTarget
  | .faultCode      => t.fault.code = s.fault.code
  | .faultOpcode    => t.fault.opcode = s.fault.opcode
  | .faultPc        => t.fault.pc = s.fault.pc
  | .illegalSeen    => t.illegal.seen = s.illegal.seen
  | .illegalOpcode  => t.illegal.opcode = s.illegal.opcode
  | .illegalPc      => t.illegal.pc = s.illegal.pc
  | .cfg            => t.cfg = s.cfg
  | .draws          => t.draws = s.draws

/-- `t` differs from `s` at most in the elements that `written` holds of. -/
def UnchangedExcept (s t : State) (written : Elem → Prop) : Prop := ∀ e, ¬ written e → Elem.same s t e

/-- The three fields of the fault register (R36). -/
def Elem.ofFault (e : Elem) : Prop := e = .faultCode ∨ e = .faultOpcode ∨ e = .faultPc

/-- The two timers (R317). -/
def Elem.ofTimers (e : Elem) : Prop := e = .dt ∨ e = .st

/-- `t` is `s` after the entry of the fault with number `code` and instruction word `w` (R310): the register records the code,
the word and the fetch address, and every other element has the value it had. -/
def EntersFault (code : BitVec 4) (w : Word) (s t : State) : Prop :=
  t.fault = { code := code, opcode := w, pc := s.pc } ∧ UnchangedExcept s t Elem.ofFault

/-- The fault that an instruction raises in a state, if any, as R300 and R313 give it. -/
def raisedFault (i : Instr) (s : State) : Option CoreFault :=
  match i with
  | .call _    => if s.sp = 16 then some .stackOverflow else none
  | .ret       => if s.sp = 0 then some .stackUnderflow else none
  | .skp x     => if 0x0F < (getV s x).toNat then some .operandOutOfRange else none
  | .sknp x    => if 0x0F < (getV s x).toNat then some .operandOutOfRange else none
  | .ldFVx x   => if 0x0F < (getV s x).toNat then some .operandOutOfRange else none
  | .ldBVx _   =>
    if s.i.toNat < 0x200 then some .writeProtected
    else if 0xFFF < s.i.toNat + 2 then some .memoryOutOfRange else none
  | .ldMemVx x =>
    if s.i.toNat < 0x200 then some .writeProtected
    else if 0xFFF < s.i.toNat + x.val then some .memoryOutOfRange else none
  | .ldVxMem x => if 0xFFF < s.i.toNat + x.val then some .memoryOutOfRange else none
  | .drw _ _ n => if 0 < n.val ∧ 0xFFF < s.i.toNat + n.val - 1 then some .memoryOutOfRange else none
  | _          => none

/-! ### Rows of the opcode map -/

/-- The instruction is the BASE row whose word is the number `w`: both profiles decode that word to it (R97). -/
def BaseRow (i : Instr) (w : Nat) : Prop := (encode i).toNat = w ∧ ∀ p, decode p (encode i) = .instr i

/-- The instruction is the FULL row whose word is the number `w`: FULL decodes the word to it, and under BASE the word is
illegal (R97, R98). -/
def FullRow (i : Instr) (w : Nat) : Prop :=
  (encode i).toNat = w ∧ decode .full (encode i) = .instr i ∧ decode .base (encode i) = .illegal (encode i)

/-- A step of `s` fetches and executes `i`: the core is not halted and not in a key-wait, the fetch is in range, and the word
decodes to `i` under the state's profile. -/
structure Executes (s : State) (i : Instr) : Prop where
  running : s.fault.code = 0
  awake   : s.blockingInput = false
  inRange : s.pc.toNat ≤ 0xFFE
  decoded : decode s.cfg.profile (wordAt s s.pc.toNat) = .instr i

/-- The words that are illegal under a profile, as R98 lists them by their nibbles. -/
def listedIllegal (p : IsaProfile) (w : Word) : Prop :=
  let family := w.toNat / 4096
  let n := w.toNat % 16
  let nn := w.toNat % 256
  match p with
  | .base =>
    (family = 0x0 ∧ w.toNat ≠ 0x00E0 ∧ w.toNat ≠ 0x00EE) ∨ (family = 0x5 ∧ n ≠ 0) ∨ (family = 0x8 ∧ 2 < n) ∨ 0x9 ≤ family
  | .full =>
    (family = 0x0 ∧ w.toNat ≠ 0x00E0 ∧ w.toNat ≠ 0x00EE) ∨ ((family = 0x5 ∨ family = 0x9) ∧ n ≠ 0) ∨
    (family = 0x8 ∧ n ∈ [0x8, 0x9, 0xA, 0xB, 0xC, 0xD, 0xF]) ∨ (family = 0xE ∧ nn ∉ [0x9E, 0xA1]) ∨
    (family = 0xF ∧ nn ∉ [0x07, 0x0A, 0x15, 0x18, 0x1E, 0x29, 0x33, 0x55, 0x65])

/-! ### The sprite of Dxyn -/

/-- A set bit of the `n`-row sprite at `I`, drawn from the start cell (`x0`, `y0`), falls on cell (`px`, `py`) (R261): bit
`7 - c` of the byte of row `r` is column `c`; a pixel past an edge is off the display under CLIP and wraps under WRAP. -/
def spriteCovers (s : State) (x0 y0 n : Nat) (px : Fin 64) (py : Fin 32) : Prop :=
  ∃ r c : Nat, r < n ∧ c < 8 ∧ (readByte s (s.i.toNat + r)).getLsbD (7 - c) = true ∧
    match s.cfg.drawEdge with
    | .clip => x0 + c = px.val ∧ y0 + r = py.val
    | .wrap => (x0 + c) % 64 = px.val ∧ (y0 + r) % 32 = py.val

/-! ### Terminal classes (R352, R353) -/

/-- Parked: a JP to its own address stands at `pc` (R352). -/
def parked (s : State) : Bool :=
  s.fault.code == 0 && !s.blockingInput && decide (s.pc.toNat ≤ 0xFFE) && wordAt s s.pc.toNat == (0x1000 ||| s.pc)

/-- The classes of R353. -/
inductive RunClass where
  | parked
  | halted
  | waiting
  | running
  deriving DecidableEq, Repr

/-- The class of a state (R353). -/
def runClass (s : State) : RunClass :=
  if halted s then .halted
  else if s.blockingInput then .waiting
  else if parked s then .parked
  else .running

/-! ### The invariant -/

/-- The largest `pc` an instruction computes (R25, D42). -/
def pcLimit : IsaProfile → Nat
  | .base => 0x1002
  | .full => 0x10FE

/-- What holds in every state that host events reach from construction. -/
structure CoreInv (s : State) : Prop where
  /-- the memory keeps its canonical form -/
  memCanonical : Memory.wf s.cfg.fontTable s.mem
  /-- the font stays as loaded and [0x050, 0x200) stays zero (R61, R67) -/
  lowMemory    : ∀ a, a < 0x200 → readByte s a = unlistedByte s.cfg.fontTable a
  /-- 0 ≤ sp ≤ 16 (R28) -/
  spRange      : s.sp.toNat ≤ 16
  /-- a return address is at most 0x1000, the one a CALL at 0xFFE pushes (R162) -/
  stackRange   : ∀ k : Fin 16, s.stack[k.val].toNat ≤ 0x1000
  /-- `pc` is within R25's bound for the profile, so it never wraps -/
  pcRange      : s.pc.toNat ≤ pcLimit s.cfg.profile
  /-- during a key-wait `pc` holds the address of the waiting Fx0A (R35) -/
  waitPc       : s.blockingInput = true → s.pc.toNat ≤ 0xFFE
  /-- under BASE the wait flag is never set (R35) -/
  waitProfile  : s.cfg.profile = .base → s.blockingInput = false
  /-- outside a key-wait the target slot is 0 (R127, D47) -/
  targetIdle   : s.blockingInput = false → s.blockingTarget = 0
  /-- codes 8..15 are never written (R300) -/
  faultRange   : s.fault.code.toNat ≤ 7
  /-- without a fault the fault register is at its reset value (R36) -/
  faultClear   : s.fault.code = 0 → s.fault.opcode = 0 ∧ s.fault.pc = 0
  /-- a halted core stays at the fetch address of the faulting step (R121, R310) -/
  faultPc      : s.fault.code ≠ 0 → s.fault.pc = s.pc
  /-- under HALT the illegal-opcode report stays at its reset value (R38) -/
  reportIdle   : s.cfg.illegalPolicy = .halt → s.illegal = { seen := false, opcode := 0, pc := 0 }
  /-- under BASE `I` and the timers hold their reset value for the whole run (R26, R29, R30) -/
  baseIdle     : s.cfg.profile = .base → s.i = 0 ∧ s.dt = 0 ∧ s.st = 0

end Sys2Proof.Machine
end

