-- ==== Sys2Proof/Certificates/Slice0/Obligations.lean ====
section
/-! DEFINITION. The statements for the provers, from the numbered rules of spec/. Each says of an instruction or of the machine
what a rule says: that it answers a next state, what that state holds, and what is left unchanged. -/

open Sys2Proof
open Sys2Proof.Machine

/-! ### Display and register loads -/

/-- R150. Whatever the display held, CLS clears every cell and sets `redraw_pending`. -/
def Obligations.ClsClearsDisplayAndMarksRedraw : Prop :=
  BaseRow .cls 0x00E0 ∧
  ∀ s, ∃ t, exec .cls s = .next t ∧
    (∀ x y, getPixel t.disp x y = false) ∧ t.redrawPending = true ∧ t.pc = s.pc + 2 ∧
    UnchangedExcept s t (fun e => e = .pc ∨ e = .redrawPending ∨ ∃ x y, e = .disp x y)

/-- R180. -/
def Obligations.LdImmLoadsImmediate : Prop :=
  ∀ x nn, BaseRow (.ldImm x nn) (0x6000 + 256 * x.val + nn.toNat) ∧
  ∀ s, ∃ t, exec (.ldImm x nn) s = .next t ∧
    getV t x = nn ∧ t.pc = s.pc + 2 ∧ UnchangedExcept s t (fun e => e = .pc ∨ e = .v x)

/-- R181. The sum is taken modulo 256 and no flag is written. -/
def Obligations.AddImmWrapsWithoutCarry : Prop :=
  ∀ x nn, BaseRow (.addImm x nn) (0x7000 + 256 * x.val + nn.toNat) ∧
  ∀ s, ∃ t, exec (.addImm x nn) s = .next t ∧
    (getV t x).toNat = ((getV s x).toNat + nn.toNat) % 256 ∧ t.pc = s.pc + 2 ∧
    UnchangedExcept s t (fun e => e = .pc ∨ e = .v x)

/-- R182. -/
def Obligations.LdRegCopiesRegister : Prop :=
  ∀ x y, BaseRow (.ldReg x y) (0x8000 + 256 * x.val + 16 * y.val) ∧
  ∀ s, ∃ t, exec (.ldReg x y) s = .next t ∧
    getV t x = getV s y ∧ t.pc = s.pc + 2 ∧ UnchangedExcept s t (fun e => e = .pc ∨ e = .v x)

/-- R183. Bit by bit; `VF` is written only as the destination. -/
def Obligations.OrRegWritesBitwiseOr : Prop :=
  ∀ x y, BaseRow (.orReg x y) (0x8001 + 256 * x.val + 16 * y.val) ∧
  ∀ s, ∃ t, exec (.orReg x y) s = .next t ∧
    (∀ k < 8, (getV t x).getLsbD k = ((getV s x).getLsbD k || (getV s y).getLsbD k)) ∧ t.pc = s.pc + 2 ∧
    UnchangedExcept s t (fun e => e = .pc ∨ e = .v x)

/-- R184. Bit by bit; `VF` is written only as the destination. -/
def Obligations.AndRegWritesBitwiseAnd : Prop :=
  ∀ x y, BaseRow (.andReg x y) (0x8002 + 256 * x.val + 16 * y.val) ∧
  ∀ s, ∃ t, exec (.andReg x y) s = .next t ∧
    (∀ k < 8, (getV t x).getLsbD k = ((getV s x).getLsbD k && (getV s y).getLsbD k)) ∧ t.pc = s.pc + 2 ∧
    UnchangedExcept s t (fun e => e = .pc ∨ e = .v x)

/-! ### Control transfer and skips (BASE) -/

/-- R160. An empty stack raises StackUnderflow (code 3); otherwise the newest entry is popped into `pc` and keeps its value. -/
def Obligations.RetPopsReturnAddress : Prop :=
  BaseRow .ret 0x00EE ∧
  ∀ s : State,
    (s.sp = 0 → ∃ t, exec .ret s = .next t ∧ EntersFault 3 0x00EE s t) ∧
    ∀ k : Fin 16, s.sp.toNat = k.val + 1 → ∃ t, exec .ret s = .next t ∧
      t.sp.toNat = k.val ∧ t.pc = s.stack[k.val] ∧ UnchangedExcept s t (fun e => e = .pc ∨ e = .sp)

/-- R161. -/
def Obligations.JpSetsPc : Prop :=
  ∀ nnn, BaseRow (.jp nnn) (0x1000 + nnn.toNat) ∧
  ∀ s, ∃ t, exec (.jp nnn) s = .next t ∧ t.pc.toNat = nnn.toNat ∧ UnchangedExcept s t (fun e => e = .pc)

/-- R162. A full stack raises StackOverflow (code 2) before the write; otherwise `A + 2` is pushed. -/
def Obligations.CallPushesReturnAddress : Prop :=
  ∀ nnn, BaseRow (.call nnn) (0x2000 + nnn.toNat) ∧
  ∀ s : State,
    (s.sp = 16 → ∃ t, exec (.call nnn) s = .next t ∧ EntersFault 2 (encode (.call nnn)) s t) ∧
    ∀ k : Fin 16, s.sp.toNat = k.val → ∃ t, exec (.call nnn) s = .next t ∧
      t.stack[k.val] = s.pc + 2 ∧ t.sp.toNat = k.val + 1 ∧ t.pc.toNat = nnn.toNat ∧
      UnchangedExcept s t (fun e => e = .pc ∨ e = .sp ∨ e = .stack k)

/-- The model's own stop (log entry 9): RET and CALL stop where `sp` holds a value that R28 calls unreachable. -/
def Obligations.StackPointerAboveSixteenStops : Prop :=
  ∀ s : State, 16 < s.sp.toNat →
    exec .ret s = .fault .stackPointerOutOfRange ∧ ∀ nnn, exec (.call nnn) s = .fault .stackPointerOutOfRange

/-- R163. -/
def Obligations.SeImmSkipsWhenEqual : Prop :=
  ∀ x nn, BaseRow (.seImm x nn) (0x3000 + 256 * x.val + nn.toNat) ∧
  ∀ s, ∃ t, exec (.seImm x nn) s = .next t ∧
    t.pc = (if getV s x = nn then s.pc + 4 else s.pc + 2) ∧ UnchangedExcept s t (fun e => e = .pc)

/-- R164. SNE skips when the values differ; for the same operands and state exactly one of SE and SNE skips. -/
def Obligations.SneImmSkipsWhenDifferent : Prop :=
  ∀ x nn, BaseRow (.sneImm x nn) (0x4000 + 256 * x.val + nn.toNat) ∧
  ∀ s, ∃ t, exec (.sneImm x nn) s = .next t ∧
    t.pc = (if getV s x = nn then s.pc + 2 else s.pc + 4) ∧ UnchangedExcept s t (fun e => e = .pc) ∧
    ∀ u, exec (.seImm x nn) s = .next u → (t.pc = s.pc + 4 ↔ ¬ u.pc = s.pc + 4)

/-- R165. -/
def Obligations.SeRegSkipsWhenEqual : Prop :=
  ∀ x y, BaseRow (.seReg x y) (0x5000 + 256 * x.val + 16 * y.val) ∧
  (∀ w : Word, w.toNat / 4096 = 5 → w.toNat % 16 ≠ 0 → ∀ p, decode p w = .illegal w) ∧
  ∀ s, ∃ t, exec (.seReg x y) s = .next t ∧
    t.pc = (if getV s x = getV s y then s.pc + 4 else s.pc + 2) ∧ UnchangedExcept s t (fun e => e = .pc)

/-! ### ALU (FULL) -/

/-- R201. Bit by bit; `VF` is written only as the destination. -/
def Obligations.XorRegWritesBitwiseXor : Prop :=
  ∀ x y, FullRow (.xorReg x y) (0x8003 + 256 * x.val + 16 * y.val) ∧
  ∀ s, ∃ t, exec (.xorReg x y) s = .next t ∧
    (∀ k < 8, (getV t x).getLsbD k = ((getV s x).getLsbD k != (getV s y).getLsbD k)) ∧ t.pc = s.pc + 2 ∧
    UnchangedExcept s t (fun e => e = .pc ∨ e = .v x)

/-- R200, R202. Both operands are the old values; the sum modulo 256 goes to `V[x]`, then the carry to `VF`. -/
def Obligations.AddRegWritesSumThenCarry : Prop :=
  ∀ x y, FullRow (.addReg x y) (0x8004 + 256 * x.val + 16 * y.val) ∧
  ∀ s, ∃ t, exec (.addReg x y) s = .next t ∧
    (x ≠ 0xF → (getV t x).toNat = ((getV s x).toNat + (getV s y).toNat) % 256) ∧
    getV t 0xF = (if 255 < (getV s x).toNat + (getV s y).toNat then 1 else 0) ∧ t.pc = s.pc + 2 ∧
    UnchangedExcept s t (fun e => e = .pc ∨ e = .v x ∨ e = .v 0xF)

/-- R200, R203. `VF` is 1 when no borrow occurs, equal operands included. -/
def Obligations.SubRegWritesDifferenceThenNotBorrow : Prop :=
  ∀ x y, FullRow (.subReg x y) (0x8005 + 256 * x.val + 16 * y.val) ∧
  ∀ s, ∃ t, exec (.subReg x y) s = .next t ∧
    (x ≠ 0xF → (getV t x).toNat = ((getV s x).toNat + 256 - (getV s y).toNat) % 256) ∧
    getV t 0xF = (if (getV s y).toNat ≤ (getV s x).toNat then 1 else 0) ∧ t.pc = s.pc + 2 ∧
    UnchangedExcept s t (fun e => e = .pc ∨ e = .v x ∨ e = .v 0xF)

/-- R200, R204. The shift source is `V[y]` or `V[x]` per `SHIFT_SOURCE`; `VF` is its old bit 0. -/
def Obligations.ShrWritesHalfThenShiftedOutBit : Prop :=
  ∀ x y, FullRow (.shr x y) (0x8006 + 256 * x.val + 16 * y.val) ∧
  ∀ s, ∀ source : Byte, (s.cfg.shiftSource = .vy → source = getV s y) → (s.cfg.shiftSource = .vx → source = getV s x) →
    ∃ t, exec (.shr x y) s = .next t ∧
    (x ≠ 0xF → (getV t x).toNat = source.toNat / 2) ∧ (getV t 0xF).toNat = source.toNat % 2 ∧ t.pc = s.pc + 2 ∧
    UnchangedExcept s t (fun e => e = .pc ∨ e = .v x ∨ e = .v 0xF)

/-- R200, R205. `V[y] - V[x]`; `VF` is 1 when no borrow occurs. -/
def Obligations.SubnWritesReverseDifferenceThenNotBorrow : Prop :=
  ∀ x y, FullRow (.subn x y) (0x8007 + 256 * x.val + 16 * y.val) ∧
  ∀ s, ∃ t, exec (.subn x y) s = .next t ∧
    (x ≠ 0xF → (getV t x).toNat = ((getV s y).toNat + 256 - (getV s x).toNat) % 256) ∧
    getV t 0xF = (if (getV s x).toNat ≤ (getV s y).toNat then 1 else 0) ∧ t.pc = s.pc + 2 ∧
    UnchangedExcept s t (fun e => e = .pc ∨ e = .v x ∨ e = .v 0xF)

/-- R200, R206. The shift source is as for SHR; `VF` is its old bit 7. -/
def Obligations.ShlWritesDoubleThenShiftedOutBit : Prop :=
  ∀ x y, FullRow (.shl x y) (0x800E + 256 * x.val + 16 * y.val) ∧
  ∀ s, ∀ source : Byte, (s.cfg.shiftSource = .vy → source = getV s y) → (s.cfg.shiftSource = .vx → source = getV s x) →
    ∃ t, exec (.shl x y) s = .next t ∧
    (x ≠ 0xF → (getV t x).toNat = source.toNat * 2 % 256) ∧ (getV t 0xF).toNat = source.toNat / 128 ∧ t.pc = s.pc + 2 ∧
    UnchangedExcept s t (fun e => e = .pc ∨ e = .v x ∨ e = .v 0xF)

/-! ### Skips and jumps (FULL) -/

/-- R220. For the same operands and state exactly one of 5xy0 and 9xy0 skips. -/
def Obligations.SneRegSkipsWhenDifferent : Prop :=
  ∀ x y, FullRow (.sneReg x y) (0x9000 + 256 * x.val + 16 * y.val) ∧
  (∀ w : Word, w.toNat / 4096 = 9 → w.toNat % 16 ≠ 0 → ∀ p, decode p w = .illegal w) ∧
  ∀ s, ∃ t, exec (.sneReg x y) s = .next t ∧
    t.pc = (if getV s x = getV s y then s.pc + 2 else s.pc + 4) ∧ UnchangedExcept s t (fun e => e = .pc) ∧
    ∀ u, exec (.seReg x y) s = .next u → (t.pc = s.pc + 4 ↔ ¬ u.pc = s.pc + 4)

/-- R222. The sum of the address and the offset register is not reduced. -/
def Obligations.JpV0AddsOffsetRegister : Prop :=
  ∀ nnn, FullRow (.jpV0 nnn) (0xB000 + nnn.toNat) ∧
  ∀ s, ∀ r : RegIdx, (s.cfg.jumpOffsetReg = .v0 → r = 0) → (s.cfg.jumpOffsetReg = .vx → r.val = nnn.toNat / 256) →
    ∃ t, exec (.jpV0 nnn) s = .next t ∧
    t.pc.toNat = nnn.toNat + (getV s r).toNat ∧ UnchangedExcept s t (fun e => e = .pc)

/-- R221, R223. A value above 0x0F names no key and raises OperandOutOfRange (code 7). -/
def Obligations.SkpSkipsWhenKeyDown : Prop :=
  ∀ x, FullRow (.skp x) (0xE09E + 256 * x.val) ∧
  ∀ s : State,
    (0x0F < (getV s x).toNat → ∃ t, exec (.skp x) s = .next t ∧ EntersFault 7 (encode (.skp x)) s t) ∧
    ∀ k : KeyIdx, (getV s x).toNat = k.val → ∃ t, exec (.skp x) s = .next t ∧
      t.pc = (if s.keys[k.val] then s.pc + 4 else s.pc + 2) ∧ UnchangedExcept s t (fun e => e = .pc)

/-- R221, R224. The complement of SKP on key indices; the same fault above them. -/
def Obligations.SknpSkipsWhenKeyUp : Prop :=
  ∀ x, FullRow (.sknp x) (0xE0A1 + 256 * x.val) ∧
  ∀ s : State,
    (0x0F < (getV s x).toNat → ∃ t, exec (.sknp x) s = .next t ∧ EntersFault 7 (encode (.sknp x)) s t) ∧
    ∀ k : KeyIdx, (getV s x).toNat = k.val → ∃ t, exec (.sknp x) s = .next t ∧
      t.pc = (if s.keys[k.val] then s.pc + 2 else s.pc + 4) ∧ UnchangedExcept s t (fun e => e = .pc)

/-! ### Index register and memory (FULL) -/

/-- R240. -/
def Obligations.LdILoadsAddress : Prop :=
  ∀ nnn, FullRow (.ldI nnn) (0xA000 + nnn.toNat) ∧
  ∀ s, ∃ t, exec (.ldI nnn) s = .next t ∧
    t.i.toNat = nnn.toNat ∧ t.pc = s.pc + 2 ∧ UnchangedExcept s t (fun e => e = .pc ∨ e = .i)

/-- R241. The only wrap of `I` is at 16 bits, and `VF` is unchanged. -/
def Obligations.AddIVxAddsModulo16Bits : Prop :=
  ∀ x, FullRow (.addIVx x) (0xF01E + 256 * x.val) ∧
  ∀ s, ∃ t, exec (.addIVx x) s = .next t ∧
    t.i.toNat = (s.i.toNat + (getV s x).toNat) % 65536 ∧ t.pc = s.pc + 2 ∧
    UnchangedExcept s t (fun e => e = .pc ∨ e = .i)

/-- R242. -/
def Obligations.LdFVxPointsAtGlyph : Prop :=
  ∀ x, FullRow (.ldFVx x) (0xF029 + 256 * x.val) ∧
  ∀ s : State,
    (0x0F < (getV s x).toNat → ∃ t, exec (.ldFVx x) s = .next t ∧ EntersFault 7 (encode (.ldFVx x)) s t) ∧
    ((getV s x).toNat ≤ 0x0F → ∃ t, exec (.ldFVx x) s = .next t ∧
      t.i.toNat = 5 * (getV s x).toNat ∧ t.pc = s.pc + 2 ∧ UnchangedExcept s t (fun e => e = .pc ∨ e = .i))

/-- R243. The three digits go to `I`, `I+1`, `I+2`; a protected or absent address faults and writes nothing. -/
def Obligations.LdBVxStoresDecimalDigits : Prop :=
  ∀ x, FullRow (.ldBVx x) (0xF033 + 256 * x.val) ∧
  ∀ s : State,
    (s.i.toNat < 0x200 → ∃ t, exec (.ldBVx x) s = .next t ∧ EntersFault 6 (encode (.ldBVx x)) s t) ∧
    (0x200 ≤ s.i.toNat → 0xFFF < s.i.toNat + 2 →
      ∃ t, exec (.ldBVx x) s = .next t ∧ EntersFault 5 (encode (.ldBVx x)) s t) ∧
    (0x200 ≤ s.i.toNat → s.i.toNat + 2 ≤ 0xFFF → ∃ t, exec (.ldBVx x) s = .next t ∧
      (readByte t s.i.toNat).toNat = (getV s x).toNat / 100 ∧
      (readByte t (s.i.toNat + 1)).toNat = (getV s x).toNat / 10 % 10 ∧
      (readByte t (s.i.toNat + 2)).toNat = (getV s x).toNat % 10 ∧ t.pc = s.pc + 2 ∧
      UnchangedExcept s t (fun e => e = .pc ∨ ∃ a, e = .mem a ∧ s.i.toNat ≤ a ∧ a ≤ s.i.toNat + 2))

/-- R244, R246. `V0..V[x]` go to `I..I+x`; `I` afterwards is as `LDST_I_INCREMENT` says; a fault writes nothing. -/
def Obligations.LdMemVxStoresRegisters : Prop :=
  ∀ x, FullRow (.ldMemVx x) (0xF055 + 256 * x.val) ∧
  ∀ s : State,
    (s.i.toNat < 0x200 → ∃ t, exec (.ldMemVx x) s = .next t ∧ EntersFault 6 (encode (.ldMemVx x)) s t) ∧
    (0x200 ≤ s.i.toNat → 0xFFF < s.i.toNat + x.val →
      ∃ t, exec (.ldMemVx x) s = .next t ∧ EntersFault 5 (encode (.ldMemVx x)) s t) ∧
    (0x200 ≤ s.i.toNat → s.i.toNat + x.val ≤ 0xFFF → ∃ t, exec (.ldMemVx x) s = .next t ∧
      (∀ k : RegIdx, k.val ≤ x.val → readByte t (s.i.toNat + k.val) = getV s k) ∧
      (s.cfg.ldstIncrement = .none → t.i = s.i) ∧
      (s.cfg.ldstIncrement = .xPlus1 → t.i.toNat = s.i.toNat + x.val + 1) ∧
      (s.cfg.ldstIncrement = .x → t.i.toNat = s.i.toNat + x.val) ∧ t.pc = s.pc + 2 ∧
      UnchangedExcept s t (fun e => e = .pc ∨ e = .i ∨ ∃ a, e = .mem a ∧ s.i.toNat ≤ a ∧ a ≤ s.i.toNat + x.val))

/-- R245, R246. `V0..V[x]` come from `I..I+x`; the font region is readable. -/
def Obligations.LdVxMemLoadsRegisters : Prop :=
  ∀ x, FullRow (.ldVxMem x) (0xF065 + 256 * x.val) ∧
  ∀ s : State,
    (0xFFF < s.i.toNat + x.val → ∃ t, exec (.ldVxMem x) s = .next t ∧ EntersFault 5 (encode (.ldVxMem x)) s t) ∧
    (s.i.toNat + x.val ≤ 0xFFF → ∃ t, exec (.ldVxMem x) s = .next t ∧
      (∀ k : RegIdx, k.val ≤ x.val → getV t k = readByte s (s.i.toNat + k.val)) ∧
      (s.cfg.ldstIncrement = .none → t.i = s.i) ∧
      (s.cfg.ldstIncrement = .xPlus1 → t.i.toNat = s.i.toNat + x.val + 1) ∧
      (s.cfg.ldstIncrement = .x → t.i.toNat = s.i.toNat + x.val) ∧ t.pc = s.pc + 2 ∧
      UnchangedExcept s t (fun e => e = .pc ∨ e = .i ∨ ∃ k, e = .v k ∧ k.val ≤ x.val))

/-! ### Random, sprite, timers, key-wait (FULL) -/

/-- From R260, with the model's own count of draws (log entry 5). The draw is the run's next free value, whatever it is; the mask
0x00 always gives 0x00. -/
def Obligations.RndMasksFreshDraw : Prop :=
  ∀ x nn, FullRow (.rnd x nn) (0xC000 + 256 * x.val + nn.toNat) ∧
  ∀ s, ∃ t, exec (.rnd x nn) s = .next t ∧
    getV t x = Config.drawRand8 s.draws &&& nn ∧ (nn = 0 → getV t x = 0) ∧ t.draws = s.draws + 1 ∧ t.pc = s.pc + 2 ∧
    UnchangedExcept s t (fun e => e = .pc ∨ e = .v x ∨ e = .draws)

/-- R261. A cell is inverted exactly when a set sprite bit falls on it; `VF` is 1 exactly when such a cell was 1; both are as
`DRAW_EDGE` says; a sprite byte above 0xFFF faults and draws nothing. -/
def Obligations.DrwInvertsCoveredCells : Prop :=
  ∀ x y n, FullRow (.drw x y n) (0xD000 + 256 * x.val + 16 * y.val + n.val) ∧
  ∀ s : State, ∀ x0 y0 : Nat, x0 = (getV s x).toNat % 64 → y0 = (getV s y).toNat % 32 →
    (0 < n.val → 0xFFF < s.i.toNat + n.val - 1 →
      ∃ t, exec (.drw x y n) s = .next t ∧ EntersFault 5 (encode (.drw x y n)) s t) ∧
    (n.val = 0 ∨ s.i.toNat + n.val - 1 ≤ 0xFFF → ∃ t, exec (.drw x y n) s = .next t ∧
      (∀ px py, getPixel t.disp px py = true ↔
        (getPixel s.disp px py = true ↔ ¬ spriteCovers s x0 y0 n.val px py)) ∧
      ((∃ px py, spriteCovers s x0 y0 n.val px py ∧ getPixel s.disp px py = true) → getV t 0xF = 1) ∧
      ((¬ ∃ px py, spriteCovers s x0 y0 n.val px py ∧ getPixel s.disp px py = true) → getV t 0xF = 0) ∧
      t.redrawPending = true ∧ t.pc = s.pc + 2 ∧
      UnchangedExcept s t (fun e => e = .pc ∨ e = .redrawPending ∨ e = .v 0xF ∨
        ∃ px py, e = .disp px py ∧ spriteCovers s x0 y0 n.val px py))

/-- From R261's pseudocode: drawing the same sprite twice at the same place restores the display, and the second draw reports a
collision exactly when the first one set a cell, that is, when a set bit falls on a cell that was 0 (log entry 17). -/
def Obligations.DrawingTwiceRestoresDisplay : Prop :=
  ∀ (x y : RegIdx) (n : Fin 16) (s t u : State), x ≠ 0xF → y ≠ 0xF → s.i.toNat + n.val ≤ 0x1000 →
    exec (.drw x y n) s = .next t → exec (.drw x y n) t = .next u →
    u.disp = s.disp ∧
    (getV u 0xF = 1 ↔ ∃ px py,
      spriteCovers s ((getV s x).toNat % 64) ((getV s y).toNat % 32) n.val px py ∧ getPixel s.disp px py = false)

/-- R262. The read changes no timer; a tick shows the value before its own decrement. -/
def Obligations.LdVxDTReadsDelayTimer : Prop :=
  ∀ x, FullRow (.ldVxDT x) (0xF007 + 256 * x.val) ∧
  (∀ s, ∃ t, exec (.ldVxDT x) s = .next t ∧
    getV t x = s.dt ∧ t.pc = s.pc + 2 ∧ UnchangedExcept s t (fun e => e = .pc ∨ e = .v x)) ∧
  ∀ s, Executes s (.ldVxDT x) → ∃ t, step s = .next t ∧ getV t x = s.dt ∧ t.dt.toNat = s.dt.toNat - 1

/-- R263. The wait is entered with `pc` still at the waiting instruction, and the keys are not examined in this tick; a key that
is already down completes the wait on the next tick. -/
def Obligations.LdVxKEntersKeyWait : Prop :=
  ∀ x, FullRow (.ldVxK x) (0xF00A + 256 * x.val) ∧
  (∀ s, ∃ t, exec (.ldVxK x) s = .next t ∧
    t.blockingInput = true ∧ t.blockingTarget = x ∧
    UnchangedExcept s t (fun e => e = .blockingInput ∨ e = .blockingTarget)) ∧
  ∀ s, Executes s (.ldVxK x) → ∃ t, step s = .next t ∧
    t.blockingInput = true ∧ t.blockingTarget = x ∧
    UnchangedExcept s t (fun e => e = .blockingInput ∨ e = .blockingTarget ∨ e.ofTimers) ∧
    ∀ k : KeyIdx, s.keys[k.val] = true → (∀ j : KeyIdx, j < k → s.keys[j.val] = false) →
      ∃ u, step t = .next u ∧ (getV u x).toNat = k.val ∧ u.blockingInput = false ∧ u.pc = s.pc + 2

/-- R264. The tick's own decrement follows the write. -/
def Obligations.LdDTVxSetsDelayTimer : Prop :=
  ∀ x, FullRow (.ldDTVx x) (0xF015 + 256 * x.val) ∧
  (∀ s, ∃ t, exec (.ldDTVx x) s = .next t ∧
    t.dt = getV s x ∧ t.pc = s.pc + 2 ∧ UnchangedExcept s t (fun e => e = .pc ∨ e = .dt)) ∧
  ∀ s, Executes s (.ldDTVx x) → ∃ t, step s = .next t ∧ t.dt.toNat = (getV s x).toNat - 1

/-- R265. The tick's own decrement follows the write. -/
def Obligations.LdSTVxSetsSoundTimer : Prop :=
  ∀ x, FullRow (.ldSTVx x) (0xF018 + 256 * x.val) ∧
  (∀ s, ∃ t, exec (.ldSTVx x) s = .next t ∧
    t.st = getV s x ∧ t.pc = s.pc + 2 ∧ UnchangedExcept s t (fun e => e = .pc ∨ e = .st)) ∧
  ∀ s, Executes s (.ldSTVx x) → ∃ t, step s = .next t ∧ t.st.toNat = (getV s x).toNat - 1

/-! ### The tick -/

/-- R122, R124, with R120's decrement: a tick that is neither halted nor waiting runs the instruction that stands at `pc`, and
then decrements the timers of the state it left. -/
def Obligations.StepRunsDecodedInstruction : Prop :=
  ∀ s i, Executes s i →
    (∀ t, exec i s = .next t → step s = .next (decrementTimers t)) ∧
    (∀ f, exec i s = .fault f → step s = .fault f)

/-- R301. An illegal word halts the core under HALT, the default, and under NOP is reported and stepped over; the timers go
on. -/
def Obligations.IllegalWordFollowsPolicy : Prop :=
  defaultConfig.illegalPolicy = .halt ∧
  ∀ (s : State) (w : Word), s.fault.code = 0 → s.blockingInput = false → s.pc.toNat ≤ 0xFFE →
    w = wordAt s s.pc.toNat → decode s.cfg.profile w = .illegal w →
    ∃ t, step s = .next t ∧ t.dt.toNat = s.dt.toNat - 1 ∧ t.st.toNat = s.st.toNat - 1 ∧
      (s.cfg.illegalPolicy = .halt → t.fault = { code := 1, opcode := w, pc := s.pc } ∧
        UnchangedExcept s t (fun e => e.ofFault ∨ e.ofTimers)) ∧
      (s.cfg.illegalPolicy = .nop → t.illegal = { seen := true, opcode := w, pc := s.pc } ∧ t.pc = s.pc + 2 ∧
        UnchangedExcept s t
          (fun e => e = .pc ∨ e = .illegalSeen ∨ e = .illegalOpcode ∨ e = .illegalPc ∨ e.ofTimers))

/-- R64, R304. A fetch at or above 0xFFF reads nothing and faults with instruction word 0x0000; a fetch at 0xFFE does not. -/
def Obligations.FetchOutOfRangeFaults : Prop :=
  (∀ s : State, s.fault.code = 0 → s.blockingInput = false → 0xFFF ≤ s.pc.toNat →
    ∃ t, step s = .next t ∧ t.fault = { code := 4, opcode := 0x0000, pc := s.pc } ∧
      UnchangedExcept s t (fun e => e.ofFault ∨ e.ofTimers)) ∧
  ∀ s : State, s.pc.toNat ≤ 0xFFE →
    fetch s = some (BitVec.ofNat 16 (256 * (readByte s s.pc.toNat).toNat + (readByte s (s.pc.toNat + 1)).toNat))

/-- R37, R312. While the fault register is non-zero a tick changes nothing but the timers, and no event but a reset changes the
register; after a reset the core is not halted. -/
def Obligations.HaltedCoreOnlyCountsTimersUntilReset : Prop :=
  ∀ s : State, s.fault.code ≠ 0 →
    (∃ t, step s = .next t ∧ t.dt.toNat = s.dt.toNat - 1 ∧ t.st.toNat = s.st.toNat - 1 ∧
      UnchangedExcept s t Elem.ofTimers) ∧
    (∀ e t, e ≠ .reset → applyEvent e s = .next t → t.fault = s.fault) ∧
    (∀ t, applyEvent .reset s = .next t → t.fault.code = 0)

/-- R125. Every tick decrements each timer once, floor at zero, after the step: whatever the step did but a write of that timer,
the timer ends one lower or at zero. -/
def Obligations.EveryTickDecrementsTimers : Prop :=
  ∀ s t : State, step s = .next t →
    ((∀ x, ¬ Executes s (.ldDTVx x)) → t.dt.toNat = s.dt.toNat - 1) ∧
    ((∀ x, ¬ Executes s (.ldSTVx x)) → t.st.toNat = s.st.toNat - 1) ∧
    (∀ x, Executes s (.ldDTVx x) → t.dt.toNat = (getV s x).toNat - 1) ∧
    (∀ x, Executes s (.ldSTVx x) → t.st.toNat = (getV s x).toNat - 1)

/-- R127. With no key down a waiting tick changes nothing but the timers; otherwise the smallest key that is down is stored, the
wait ends and `pc` moves past the waiting instruction. -/
def Obligations.KeyPollTakesSmallestKeyDown : Prop :=
  ∀ s : State, s.fault.code = 0 → s.blockingInput = true →
    ((∀ k : KeyIdx, s.keys[k.val] = false) → ∃ t, step s = .next t ∧ UnchangedExcept s t Elem.ofTimers) ∧
    ∀ k : KeyIdx, s.keys[k.val] = true → (∀ j : KeyIdx, j < k → s.keys[j.val] = false) →
      ∃ t, step s = .next t ∧ (getV t s.blockingTarget).toNat = k.val ∧ t.blockingInput = false ∧
        t.blockingTarget = 0 ∧ t.pc = s.pc + 2 ∧
        UnchangedExcept s t (fun e => e = .v s.blockingTarget ∨ e = .blockingInput ∨ e = .blockingTarget ∨ e = .pc ∨
          e.ofTimers)

/-! ### Faults -/

/-- R300, R310, R313, for every instruction: in a state that R28 allows, it raises exactly the fault that R300 lists for it, with
R300's code and its own word, or completes and leaves the fault register alone. -/
def Obligations.InstructionsRaiseExactlyListedFaults : Prop :=
  ∀ (i : Instr) (s : State), s.sp.toNat ≤ 16 →
    (∀ f, raisedFault i s = some f → ∃ t, exec i s = .next t ∧ EntersFault (faultCode f) (encode i) s t) ∧
    (raisedFault i s = none → ∃ t, exec i s = .next t ∧ t.fault = s.fault)

/-- R121, R310. Whatever a tick does that ends in a fault, it leaves every element but the fault register and the timers as it
was at its start, records the fetch address, and still decrements the timers. -/
def Obligations.FaultingStepIsPrecise : Prop :=
  ∀ s t : State, step s = .next t → s.fault.code = 0 → t.fault.code ≠ 0 →
    UnchangedExcept s t (fun e => e.ofFault ∨ e.ofTimers) ∧ t.fault.pc = s.pc ∧
    (s.pc.toNat ≤ 0xFFE → t.fault.opcode = wordAt s s.pc.toNat) ∧ (0xFFF ≤ s.pc.toNat → t.fault.opcode = 0x0000) ∧
    t.dt.toNat = s.dt.toNat - 1 ∧ t.st.toNat = s.st.toNat - 1

/-! ### Encoding -/

/-- Some words written out from the patterns of R97, and one that no pattern matches. -/
def Obligations.WrittenOutWordsDecode : Prop :=
  decode .base 0b0000000011100000#16 = .instr .cls ∧
  decode .base 0b0010011010010011#16 = .instr (.call 0x693) ∧
  decode .base 0b0011101101010100#16 = .instr (.seImm 0xB 0x54) ∧
  decode .base 0b1000101011000001#16 = .instr (.orReg 0xA 0xC) ∧
  decode .full 0b1000000100100110#16 = .instr (.shr 1 2) ∧
  decode .full 0b1011001100000000#16 = .instr (.jpV0 0x300) ∧
  decode .full 0b1101000100100101#16 = .instr (.drw 1 2 5) ∧
  decode .full 0b1110010110011110#16 = .instr (.skp 5) ∧
  decode .full 0b1111001001100101#16 = .instr (.ldVxMem 2) ∧
  decode .base 0b1111001001100101#16 = .illegal 0xF265 ∧
  decode .full 0b0101001101000001#16 = .illegal 0x5341

/-- Every well-formed instruction, at every value of its operands, is what its own word decodes to, as a word and as the bytes
that memory holds. -/
def Obligations.DecodeOfEncodeIsInstruction : Prop :=
  ∀ (p : IsaProfile) (i : Instr), i.wellFormed p = true →
    decode p (encode i) = .instr i ∧ ∀ rest, decodeBytes p (encodeBytes i ++ rest) = .ok (i, rest)

/-- A word that decodes to an instruction is that instruction's word: each word has one meaning, and the word a meaning records
in the fault register is the word that was fetched. -/
def Obligations.EncodeOfDecodeIsWord : Prop :=
  ∀ (p : IsaProfile) (w : Word) (i : Instr), decode p w = .instr i → encode i = w ∧ i.wellFormed p = true

/-- R98 without its counts: the illegal words under each profile are exactly those it lists. -/
def Obligations.IllegalWordsAreThoseListed : Prop :=
  ∀ (p : IsaProfile) (w : Word), decode p w = .illegal w ↔ listedIllegal p w

/-- R95. A word decodes to an instruction exactly when some row that the profile admits matches it on every fixed bit; the row
that matched is the instruction's own, the one its own word matches and whose profile it has; and at most one row matches a
word. -/
def Obligations.DecodingIsExactAndRowsDisjoint : Prop :=
  (∀ (p : IsaProfile) (w : Word), (∃ i, decode p w = .instr i) ↔
    ∃ r ∈ opcodeTable, w &&& r.mask = r.value ∧ p.admits r.profile = true) ∧
  (∀ (p : IsaProfile) (w : Word) (i : Instr), decode p w = .instr i →
    ∃ r ∈ opcodeTable, w &&& r.mask = r.value ∧ encode i &&& r.mask = r.value ∧ r.profile = i.profile ∧
      p.admits r.profile = true) ∧
  ∀ r₁ ∈ opcodeTable, ∀ r₂ ∈ opcodeTable, ∀ w : Word,
    w &&& r₁.mask = r₁.value → w &&& r₂.mask = r₂.value → r₁ = r₂

/-! ### Reset and the host -/

/-- R340, R342. A reset gives every element the value R340 lists, whatever the state before, keeps the configuration, and a
second one changes nothing; the state after construction is such a state. -/
def Obligations.ResetGivesListedValues : Prop :=
  (∀ s : State, ∀ t, applyEvent .reset s = .next t →
    (∀ x, getV t x = 0) ∧ t.i = 0 ∧ t.pc = 0x200 ∧ (∀ k : Fin 16, t.stack[k.val] = 0) ∧ t.sp = 0 ∧ t.dt = 0 ∧ t.st = 0 ∧
    (∀ k : Fin 80, readByte t k.val = s.cfg.fontTable[k.val]) ∧ (∀ a, 0x050 ≤ a → readByte t a = 0) ∧
    (∀ x y, getPixel t.disp x y = false) ∧ t.redrawPending = false ∧ (∀ k : KeyIdx, t.keys[k.val] = false) ∧
    t.blockingInput = false ∧ t.blockingTarget = 0 ∧ t.fault = { code := 0, opcode := 0, pc := 0 } ∧
    t.illegal = { seen := false, opcode := 0, pc := 0 } ∧ t.cfg = s.cfg ∧ applyEvent .reset t = .next t) ∧
  applyEvent .reset State.reset = .next State.reset

/-- R136. A load writes the bytes that fit from 0x200 upward and answers how many; nothing else changes; an unreadable source
changes nothing. -/
def Obligations.LoadWritesOnlyTheProgramWindow : Prop :=
  ∀ s : State,
    loadImage .unreadable s = (.loadFailure, s) ∧
    ∀ (b : List Byte) (m : Nat), m = min b.length 3584 → ∃ t, loadImage (.bytes b) s = (.count m, t) ∧
      (∀ k, (h : k < b.length) → k < m → readByte t (0x200 + k) = b[k]) ∧
      UnchangedExcept s t (fun e => ∃ a, e = .mem a ∧ 0x200 ≤ a ∧ a < 0x200 + m)

/-- R137, R138 and the core's side of them (R33, R34, R39): a key write and a redraw acknowledge change one element each; a
step changes no key latch and no configuration, and never clears `redraw_pending`. -/
def Obligations.HostWritesKeysAndClearsRedraw : Prop :=
  (∀ k b s, (setKey k b s).keys[k.val] = b ∧ UnchangedExcept s (setKey k b s) (fun e => e = .keys k)) ∧
  (∀ s, (ackRedraw s).redrawPending = false ∧ UnchangedExcept s (ackRedraw s) (fun e => e = .redrawPending)) ∧
  ∀ s t, step s = .next t → t.keys = s.keys ∧ t.cfg = s.cfg ∧ (s.redrawPending = true → t.redrawPending = true)

/-- From R71, R26 and R35: under BASE no event but a load or a reset changes memory, and a step outside a key-wait leaves `I` and
the wait flag alone. The clause on `draws` is about the model's own count of draws (log entry 5), which no rule of the spec
names; it says that such a step takes none, as R41 makes a draw the input of FULL `Cxnn`. -/
def Obligations.BaseProfileLeavesMemoryAndIndex : Prop :=
  ∀ s : State, s.cfg.profile = .base →
    (∀ e t, (∀ image, e ≠ .load image) → e ≠ .reset → applyEvent e s = .next t → ∀ a, readByte t a = readByte s a) ∧
    ∀ t, s.blockingInput = false → step s = .next t → t.i = s.i ∧ t.draws = s.draws ∧ t.blockingInput = false

/-- From R352: a parked core ticks, changes nothing but its timers, and stays parked. -/
def Obligations.ParkedCoreStaysParked : Prop :=
  ∀ s : State, parked s = true →
    ∃ t, step s = .next t ∧ UnchangedExcept s t Elem.ofTimers ∧
      t.dt.toNat = s.dt.toNat - 1 ∧ t.st.toNat = s.st.toNat - 1 ∧ parked t = true

/-! ### Whole-machine results -/

/-- The invariant holds at construction. -/
def Obligations.ResetStateMeetsInvariant : Prop := CoreInv State.reset

/-- From every state that meets the invariant a tick answers a next state that meets it: the core never stops the model, the
stack pointer stays in 0..16, `pc` never wraps, and the low memory stays as loaded. -/
def Obligations.StepAdvancesAndKeepsInvariant : Prop := ∀ s, CoreInv s → ∃ t, step s = .next t ∧ CoreInv t

/-- Every host event keeps the invariant, so it holds in every state that a run reaches. -/
def Obligations.HostEventsKeepInvariant : Prop := ∀ e s, CoreInv s → ∃ t, applyEvent e s = .next t ∧ CoreInv t

/-- R317, "nothing reads ST but the host": two states that differ in the sound timer alone tick to states that differ in it
alone. -/
def Obligations.SoundTimerNeverInfluencesTheCore : Prop :=
  ∀ (s t : State) (b : Byte), step s = .next t → ∃ c, step { s with st := b } = .next { t with st := c }
end

