-- ==== Sys2Proof/Laws/State.lean ====
section
/-! SUPPORT. One lemma per field per update of the state, so that no later proof unfolds a record update, and the laws of the
accessors `getV`, `readByte` and `getPixel` over the updates. -/

namespace Sys2Proof.Machine

/-! ### setV -/

@[simp] theorem setV_v (s : State) (x : RegIdx) (b : Byte) : (setV s x b).v = s.v.set x.val b := rfl
@[simp] theorem setV_i (s : State) (x : RegIdx) (b : Byte) : (setV s x b).i = s.i := rfl
@[simp] theorem setV_pc (s : State) (x : RegIdx) (b : Byte) : (setV s x b).pc = s.pc := rfl
@[simp] theorem setV_stack (s : State) (x : RegIdx) (b : Byte) : (setV s x b).stack = s.stack := rfl
@[simp] theorem setV_sp (s : State) (x : RegIdx) (b : Byte) : (setV s x b).sp = s.sp := rfl
@[simp] theorem setV_dt (s : State) (x : RegIdx) (b : Byte) : (setV s x b).dt = s.dt := rfl
@[simp] theorem setV_st (s : State) (x : RegIdx) (b : Byte) : (setV s x b).st = s.st := rfl
@[simp] theorem setV_mem (s : State) (x : RegIdx) (b : Byte) : (setV s x b).mem = s.mem := rfl
@[simp] theorem setV_disp (s : State) (x : RegIdx) (b : Byte) : (setV s x b).disp = s.disp := rfl
@[simp] theorem setV_redrawPending (s : State) (x : RegIdx) (b : Byte) : (setV s x b).redrawPending = s.redrawPending := rfl
@[simp] theorem setV_keys (s : State) (x : RegIdx) (b : Byte) : (setV s x b).keys = s.keys := rfl
@[simp] theorem setV_blockingInput (s : State) (x : RegIdx) (b : Byte) : (setV s x b).blockingInput = s.blockingInput := rfl
@[simp] theorem setV_blockingTarget (s : State) (x : RegIdx) (b : Byte) : (setV s x b).blockingTarget = s.blockingTarget := rfl
@[simp] theorem setV_fault (s : State) (x : RegIdx) (b : Byte) : (setV s x b).fault = s.fault := rfl
@[simp] theorem setV_illegal (s : State) (x : RegIdx) (b : Byte) : (setV s x b).illegal = s.illegal := rfl
@[simp] theorem setV_cfg (s : State) (x : RegIdx) (b : Byte) : (setV s x b).cfg = s.cfg := rfl
@[simp] theorem setV_draws (s : State) (x : RegIdx) (b : Byte) : (setV s x b).draws = s.draws := rfl

/-! ### advance -/

@[simp] theorem advance_v (s : State) : (advance s).v = s.v := rfl
@[simp] theorem advance_i (s : State) : (advance s).i = s.i := rfl
@[simp] theorem advance_pc (s : State) : (advance s).pc = s.pc + 2 := rfl
@[simp] theorem advance_stack (s : State) : (advance s).stack = s.stack := rfl
@[simp] theorem advance_sp (s : State) : (advance s).sp = s.sp := rfl
@[simp] theorem advance_dt (s : State) : (advance s).dt = s.dt := rfl
@[simp] theorem advance_st (s : State) : (advance s).st = s.st := rfl
@[simp] theorem advance_mem (s : State) : (advance s).mem = s.mem := rfl
@[simp] theorem advance_disp (s : State) : (advance s).disp = s.disp := rfl
@[simp] theorem advance_redrawPending (s : State) : (advance s).redrawPending = s.redrawPending := rfl
@[simp] theorem advance_keys (s : State) : (advance s).keys = s.keys := rfl
@[simp] theorem advance_blockingInput (s : State) : (advance s).blockingInput = s.blockingInput := rfl
@[simp] theorem advance_blockingTarget (s : State) : (advance s).blockingTarget = s.blockingTarget := rfl
@[simp] theorem advance_fault (s : State) : (advance s).fault = s.fault := rfl
@[simp] theorem advance_illegal (s : State) : (advance s).illegal = s.illegal := rfl
@[simp] theorem advance_cfg (s : State) : (advance s).cfg = s.cfg := rfl
@[simp] theorem advance_draws (s : State) : (advance s).draws = s.draws := rfl

/-! ### setI -/

@[simp] theorem setI_v (s : State) (w : Word) : (setI s w).v = s.v := rfl
@[simp] theorem setI_i (s : State) (w : Word) : (setI s w).i = w := rfl
@[simp] theorem setI_pc (s : State) (w : Word) : (setI s w).pc = s.pc := rfl
@[simp] theorem setI_stack (s : State) (w : Word) : (setI s w).stack = s.stack := rfl
@[simp] theorem setI_sp (s : State) (w : Word) : (setI s w).sp = s.sp := rfl
@[simp] theorem setI_dt (s : State) (w : Word) : (setI s w).dt = s.dt := rfl
@[simp] theorem setI_st (s : State) (w : Word) : (setI s w).st = s.st := rfl
@[simp] theorem setI_mem (s : State) (w : Word) : (setI s w).mem = s.mem := rfl
@[simp] theorem setI_disp (s : State) (w : Word) : (setI s w).disp = s.disp := rfl
@[simp] theorem setI_redrawPending (s : State) (w : Word) : (setI s w).redrawPending = s.redrawPending := rfl
@[simp] theorem setI_keys (s : State) (w : Word) : (setI s w).keys = s.keys := rfl
@[simp] theorem setI_blockingInput (s : State) (w : Word) : (setI s w).blockingInput = s.blockingInput := rfl
@[simp] theorem setI_blockingTarget (s : State) (w : Word) : (setI s w).blockingTarget = s.blockingTarget := rfl
@[simp] theorem setI_fault (s : State) (w : Word) : (setI s w).fault = s.fault := rfl
@[simp] theorem setI_illegal (s : State) (w : Word) : (setI s w).illegal = s.illegal := rfl
@[simp] theorem setI_cfg (s : State) (w : Word) : (setI s w).cfg = s.cfg := rfl
@[simp] theorem setI_draws (s : State) (w : Word) : (setI s w).draws = s.draws := rfl

/-! ### setDT -/

@[simp] theorem setDT_v (s : State) (b : Byte) : (setDT s b).v = s.v := rfl
@[simp] theorem setDT_i (s : State) (b : Byte) : (setDT s b).i = s.i := rfl
@[simp] theorem setDT_pc (s : State) (b : Byte) : (setDT s b).pc = s.pc := rfl
@[simp] theorem setDT_stack (s : State) (b : Byte) : (setDT s b).stack = s.stack := rfl
@[simp] theorem setDT_sp (s : State) (b : Byte) : (setDT s b).sp = s.sp := rfl
@[simp] theorem setDT_dt (s : State) (b : Byte) : (setDT s b).dt = b := rfl
@[simp] theorem setDT_st (s : State) (b : Byte) : (setDT s b).st = s.st := rfl
@[simp] theorem setDT_mem (s : State) (b : Byte) : (setDT s b).mem = s.mem := rfl
@[simp] theorem setDT_disp (s : State) (b : Byte) : (setDT s b).disp = s.disp := rfl
@[simp] theorem setDT_redrawPending (s : State) (b : Byte) : (setDT s b).redrawPending = s.redrawPending := rfl
@[simp] theorem setDT_keys (s : State) (b : Byte) : (setDT s b).keys = s.keys := rfl
@[simp] theorem setDT_blockingInput (s : State) (b : Byte) : (setDT s b).blockingInput = s.blockingInput := rfl
@[simp] theorem setDT_blockingTarget (s : State) (b : Byte) : (setDT s b).blockingTarget = s.blockingTarget := rfl
@[simp] theorem setDT_fault (s : State) (b : Byte) : (setDT s b).fault = s.fault := rfl
@[simp] theorem setDT_illegal (s : State) (b : Byte) : (setDT s b).illegal = s.illegal := rfl
@[simp] theorem setDT_cfg (s : State) (b : Byte) : (setDT s b).cfg = s.cfg := rfl
@[simp] theorem setDT_draws (s : State) (b : Byte) : (setDT s b).draws = s.draws := rfl

/-! ### setST -/

@[simp] theorem setST_v (s : State) (b : Byte) : (setST s b).v = s.v := rfl
@[simp] theorem setST_i (s : State) (b : Byte) : (setST s b).i = s.i := rfl
@[simp] theorem setST_pc (s : State) (b : Byte) : (setST s b).pc = s.pc := rfl
@[simp] theorem setST_stack (s : State) (b : Byte) : (setST s b).stack = s.stack := rfl
@[simp] theorem setST_sp (s : State) (b : Byte) : (setST s b).sp = s.sp := rfl
@[simp] theorem setST_dt (s : State) (b : Byte) : (setST s b).dt = s.dt := rfl
@[simp] theorem setST_st (s : State) (b : Byte) : (setST s b).st = b := rfl
@[simp] theorem setST_mem (s : State) (b : Byte) : (setST s b).mem = s.mem := rfl
@[simp] theorem setST_disp (s : State) (b : Byte) : (setST s b).disp = s.disp := rfl
@[simp] theorem setST_redrawPending (s : State) (b : Byte) : (setST s b).redrawPending = s.redrawPending := rfl
@[simp] theorem setST_keys (s : State) (b : Byte) : (setST s b).keys = s.keys := rfl
@[simp] theorem setST_blockingInput (s : State) (b : Byte) : (setST s b).blockingInput = s.blockingInput := rfl
@[simp] theorem setST_blockingTarget (s : State) (b : Byte) : (setST s b).blockingTarget = s.blockingTarget := rfl
@[simp] theorem setST_fault (s : State) (b : Byte) : (setST s b).fault = s.fault := rfl
@[simp] theorem setST_illegal (s : State) (b : Byte) : (setST s b).illegal = s.illegal := rfl
@[simp] theorem setST_cfg (s : State) (b : Byte) : (setST s b).cfg = s.cfg := rfl
@[simp] theorem setST_draws (s : State) (b : Byte) : (setST s b).draws = s.draws := rfl

/-! ### setDisplay -/

@[simp] theorem setDisplay_v (s : State) (d : Display) : (setDisplay s d).v = s.v := rfl
@[simp] theorem setDisplay_i (s : State) (d : Display) : (setDisplay s d).i = s.i := rfl
@[simp] theorem setDisplay_pc (s : State) (d : Display) : (setDisplay s d).pc = s.pc := rfl
@[simp] theorem setDisplay_stack (s : State) (d : Display) : (setDisplay s d).stack = s.stack := rfl
@[simp] theorem setDisplay_sp (s : State) (d : Display) : (setDisplay s d).sp = s.sp := rfl
@[simp] theorem setDisplay_dt (s : State) (d : Display) : (setDisplay s d).dt = s.dt := rfl
@[simp] theorem setDisplay_st (s : State) (d : Display) : (setDisplay s d).st = s.st := rfl
@[simp] theorem setDisplay_mem (s : State) (d : Display) : (setDisplay s d).mem = s.mem := rfl
@[simp] theorem setDisplay_disp (s : State) (d : Display) : (setDisplay s d).disp = d := rfl
@[simp] theorem setDisplay_redrawPending (s : State) (d : Display) : (setDisplay s d).redrawPending = true := rfl
@[simp] theorem setDisplay_keys (s : State) (d : Display) : (setDisplay s d).keys = s.keys := rfl
@[simp] theorem setDisplay_blockingInput (s : State) (d : Display) : (setDisplay s d).blockingInput = s.blockingInput := rfl
@[simp] theorem setDisplay_blockingTarget (s : State) (d : Display) : (setDisplay s d).blockingTarget = s.blockingTarget := rfl
@[simp] theorem setDisplay_fault (s : State) (d : Display) : (setDisplay s d).fault = s.fault := rfl
@[simp] theorem setDisplay_illegal (s : State) (d : Display) : (setDisplay s d).illegal = s.illegal := rfl
@[simp] theorem setDisplay_cfg (s : State) (d : Display) : (setDisplay s d).cfg = s.cfg := rfl
@[simp] theorem setDisplay_draws (s : State) (d : Display) : (setDisplay s d).draws = s.draws := rfl

/-! ### countDraw -/

@[simp] theorem countDraw_v (s : State) : (countDraw s).v = s.v := rfl
@[simp] theorem countDraw_i (s : State) : (countDraw s).i = s.i := rfl
@[simp] theorem countDraw_pc (s : State) : (countDraw s).pc = s.pc := rfl
@[simp] theorem countDraw_stack (s : State) : (countDraw s).stack = s.stack := rfl
@[simp] theorem countDraw_sp (s : State) : (countDraw s).sp = s.sp := rfl
@[simp] theorem countDraw_dt (s : State) : (countDraw s).dt = s.dt := rfl
@[simp] theorem countDraw_st (s : State) : (countDraw s).st = s.st := rfl
@[simp] theorem countDraw_mem (s : State) : (countDraw s).mem = s.mem := rfl
@[simp] theorem countDraw_disp (s : State) : (countDraw s).disp = s.disp := rfl
@[simp] theorem countDraw_redrawPending (s : State) : (countDraw s).redrawPending = s.redrawPending := rfl
@[simp] theorem countDraw_keys (s : State) : (countDraw s).keys = s.keys := rfl
@[simp] theorem countDraw_blockingInput (s : State) : (countDraw s).blockingInput = s.blockingInput := rfl
@[simp] theorem countDraw_blockingTarget (s : State) : (countDraw s).blockingTarget = s.blockingTarget := rfl
@[simp] theorem countDraw_fault (s : State) : (countDraw s).fault = s.fault := rfl
@[simp] theorem countDraw_illegal (s : State) : (countDraw s).illegal = s.illegal := rfl
@[simp] theorem countDraw_cfg (s : State) : (countDraw s).cfg = s.cfg := rfl
@[simp] theorem countDraw_draws (s : State) : (countDraw s).draws = s.draws + 1 := rfl

/-! ### enterWait -/

@[simp] theorem enterWait_v (s : State) (x : RegIdx) : (enterWait s x).v = s.v := rfl
@[simp] theorem enterWait_i (s : State) (x : RegIdx) : (enterWait s x).i = s.i := rfl
@[simp] theorem enterWait_pc (s : State) (x : RegIdx) : (enterWait s x).pc = s.pc := rfl
@[simp] theorem enterWait_stack (s : State) (x : RegIdx) : (enterWait s x).stack = s.stack := rfl
@[simp] theorem enterWait_sp (s : State) (x : RegIdx) : (enterWait s x).sp = s.sp := rfl
@[simp] theorem enterWait_dt (s : State) (x : RegIdx) : (enterWait s x).dt = s.dt := rfl
@[simp] theorem enterWait_st (s : State) (x : RegIdx) : (enterWait s x).st = s.st := rfl
@[simp] theorem enterWait_mem (s : State) (x : RegIdx) : (enterWait s x).mem = s.mem := rfl
@[simp] theorem enterWait_disp (s : State) (x : RegIdx) : (enterWait s x).disp = s.disp := rfl
@[simp] theorem enterWait_redrawPending (s : State) (x : RegIdx) : (enterWait s x).redrawPending = s.redrawPending := rfl
@[simp] theorem enterWait_keys (s : State) (x : RegIdx) : (enterWait s x).keys = s.keys := rfl
@[simp] theorem enterWait_blockingInput (s : State) (x : RegIdx) : (enterWait s x).blockingInput = true := rfl
@[simp] theorem enterWait_blockingTarget (s : State) (x : RegIdx) : (enterWait s x).blockingTarget = x := rfl
@[simp] theorem enterWait_fault (s : State) (x : RegIdx) : (enterWait s x).fault = s.fault := rfl
@[simp] theorem enterWait_illegal (s : State) (x : RegIdx) : (enterWait s x).illegal = s.illegal := rfl
@[simp] theorem enterWait_cfg (s : State) (x : RegIdx) : (enterWait s x).cfg = s.cfg := rfl
@[simp] theorem enterWait_draws (s : State) (x : RegIdx) : (enterWait s x).draws = s.draws := rfl

/-! ### leaveWait -/

@[simp] theorem leaveWait_v (s : State) : (leaveWait s).v = s.v := rfl
@[simp] theorem leaveWait_i (s : State) : (leaveWait s).i = s.i := rfl
@[simp] theorem leaveWait_pc (s : State) : (leaveWait s).pc = s.pc := rfl
@[simp] theorem leaveWait_stack (s : State) : (leaveWait s).stack = s.stack := rfl
@[simp] theorem leaveWait_sp (s : State) : (leaveWait s).sp = s.sp := rfl
@[simp] theorem leaveWait_dt (s : State) : (leaveWait s).dt = s.dt := rfl
@[simp] theorem leaveWait_st (s : State) : (leaveWait s).st = s.st := rfl
@[simp] theorem leaveWait_mem (s : State) : (leaveWait s).mem = s.mem := rfl
@[simp] theorem leaveWait_disp (s : State) : (leaveWait s).disp = s.disp := rfl
@[simp] theorem leaveWait_redrawPending (s : State) : (leaveWait s).redrawPending = s.redrawPending := rfl
@[simp] theorem leaveWait_keys (s : State) : (leaveWait s).keys = s.keys := rfl
@[simp] theorem leaveWait_blockingInput (s : State) : (leaveWait s).blockingInput = false := rfl
@[simp] theorem leaveWait_blockingTarget (s : State) : (leaveWait s).blockingTarget = 0 := rfl
@[simp] theorem leaveWait_fault (s : State) : (leaveWait s).fault = s.fault := rfl
@[simp] theorem leaveWait_illegal (s : State) : (leaveWait s).illegal = s.illegal := rfl
@[simp] theorem leaveWait_cfg (s : State) : (leaveWait s).cfg = s.cfg := rfl
@[simp] theorem leaveWait_draws (s : State) : (leaveWait s).draws = s.draws := rfl

/-! ### reportIllegal -/

@[simp] theorem reportIllegal_v (s : State) (op a : Word) : (reportIllegal s op a).v = s.v := rfl
@[simp] theorem reportIllegal_i (s : State) (op a : Word) : (reportIllegal s op a).i = s.i := rfl
@[simp] theorem reportIllegal_pc (s : State) (op a : Word) : (reportIllegal s op a).pc = s.pc := rfl
@[simp] theorem reportIllegal_stack (s : State) (op a : Word) : (reportIllegal s op a).stack = s.stack := rfl
@[simp] theorem reportIllegal_sp (s : State) (op a : Word) : (reportIllegal s op a).sp = s.sp := rfl
@[simp] theorem reportIllegal_dt (s : State) (op a : Word) : (reportIllegal s op a).dt = s.dt := rfl
@[simp] theorem reportIllegal_st (s : State) (op a : Word) : (reportIllegal s op a).st = s.st := rfl
@[simp] theorem reportIllegal_mem (s : State) (op a : Word) : (reportIllegal s op a).mem = s.mem := rfl
@[simp] theorem reportIllegal_disp (s : State) (op a : Word) : (reportIllegal s op a).disp = s.disp := rfl
@[simp] theorem reportIllegal_redrawPending (s : State) (op a : Word) : (reportIllegal s op a).redrawPending = s.redrawPending := rfl
@[simp] theorem reportIllegal_keys (s : State) (op a : Word) : (reportIllegal s op a).keys = s.keys := rfl
@[simp] theorem reportIllegal_blockingInput (s : State) (op a : Word) : (reportIllegal s op a).blockingInput = s.blockingInput := rfl
@[simp] theorem reportIllegal_blockingTarget (s : State) (op a : Word) : (reportIllegal s op a).blockingTarget = s.blockingTarget := rfl
@[simp] theorem reportIllegal_fault (s : State) (op a : Word) : (reportIllegal s op a).fault = s.fault := rfl
@[simp] theorem reportIllegal_illegal (s : State) (op a : Word) : (reportIllegal s op a).illegal = { seen := true, opcode := op, pc := a } := rfl
@[simp] theorem reportIllegal_cfg (s : State) (op a : Word) : (reportIllegal s op a).cfg = s.cfg := rfl
@[simp] theorem reportIllegal_draws (s : State) (op a : Word) : (reportIllegal s op a).draws = s.draws := rfl

/-! ### jumpTo -/

@[simp] theorem jumpTo_v (s : State) (t : Word) : (jumpTo s t).v = s.v := rfl
@[simp] theorem jumpTo_i (s : State) (t : Word) : (jumpTo s t).i = s.i := rfl
@[simp] theorem jumpTo_pc (s : State) (t : Word) : (jumpTo s t).pc = t := rfl
@[simp] theorem jumpTo_stack (s : State) (t : Word) : (jumpTo s t).stack = s.stack := rfl
@[simp] theorem jumpTo_sp (s : State) (t : Word) : (jumpTo s t).sp = s.sp := rfl
@[simp] theorem jumpTo_dt (s : State) (t : Word) : (jumpTo s t).dt = s.dt := rfl
@[simp] theorem jumpTo_st (s : State) (t : Word) : (jumpTo s t).st = s.st := rfl
@[simp] theorem jumpTo_mem (s : State) (t : Word) : (jumpTo s t).mem = s.mem := rfl
@[simp] theorem jumpTo_disp (s : State) (t : Word) : (jumpTo s t).disp = s.disp := rfl
@[simp] theorem jumpTo_redrawPending (s : State) (t : Word) : (jumpTo s t).redrawPending = s.redrawPending := rfl
@[simp] theorem jumpTo_keys (s : State) (t : Word) : (jumpTo s t).keys = s.keys := rfl
@[simp] theorem jumpTo_blockingInput (s : State) (t : Word) : (jumpTo s t).blockingInput = s.blockingInput := rfl
@[simp] theorem jumpTo_blockingTarget (s : State) (t : Word) : (jumpTo s t).blockingTarget = s.blockingTarget := rfl
@[simp] theorem jumpTo_fault (s : State) (t : Word) : (jumpTo s t).fault = s.fault := rfl
@[simp] theorem jumpTo_illegal (s : State) (t : Word) : (jumpTo s t).illegal = s.illegal := rfl
@[simp] theorem jumpTo_cfg (s : State) (t : Word) : (jumpTo s t).cfg = s.cfg := rfl
@[simp] theorem jumpTo_draws (s : State) (t : Word) : (jumpTo s t).draws = s.draws := rfl

/-! ### writeByte -/

@[simp] theorem writeByte_v (s : State) (a : Nat) (b : Byte) : (writeByte s a b).v = s.v := rfl
@[simp] theorem writeByte_i (s : State) (a : Nat) (b : Byte) : (writeByte s a b).i = s.i := rfl
@[simp] theorem writeByte_pc (s : State) (a : Nat) (b : Byte) : (writeByte s a b).pc = s.pc := rfl
@[simp] theorem writeByte_stack (s : State) (a : Nat) (b : Byte) : (writeByte s a b).stack = s.stack := rfl
@[simp] theorem writeByte_sp (s : State) (a : Nat) (b : Byte) : (writeByte s a b).sp = s.sp := rfl
@[simp] theorem writeByte_dt (s : State) (a : Nat) (b : Byte) : (writeByte s a b).dt = s.dt := rfl
@[simp] theorem writeByte_st (s : State) (a : Nat) (b : Byte) : (writeByte s a b).st = s.st := rfl
@[simp] theorem writeByte_mem (s : State) (a : Nat) (b : Byte) : (writeByte s a b).mem = memWrite s.cfg.fontTable s.mem a b := rfl
@[simp] theorem writeByte_disp (s : State) (a : Nat) (b : Byte) : (writeByte s a b).disp = s.disp := rfl
@[simp] theorem writeByte_redrawPending (s : State) (a : Nat) (b : Byte) : (writeByte s a b).redrawPending = s.redrawPending := rfl
@[simp] theorem writeByte_keys (s : State) (a : Nat) (b : Byte) : (writeByte s a b).keys = s.keys := rfl
@[simp] theorem writeByte_blockingInput (s : State) (a : Nat) (b : Byte) : (writeByte s a b).blockingInput = s.blockingInput := rfl
@[simp] theorem writeByte_blockingTarget (s : State) (a : Nat) (b : Byte) : (writeByte s a b).blockingTarget = s.blockingTarget := rfl
@[simp] theorem writeByte_fault (s : State) (a : Nat) (b : Byte) : (writeByte s a b).fault = s.fault := rfl
@[simp] theorem writeByte_illegal (s : State) (a : Nat) (b : Byte) : (writeByte s a b).illegal = s.illegal := rfl
@[simp] theorem writeByte_cfg (s : State) (a : Nat) (b : Byte) : (writeByte s a b).cfg = s.cfg := rfl
@[simp] theorem writeByte_draws (s : State) (a : Nat) (b : Byte) : (writeByte s a b).draws = s.draws := rfl

/-! ### takeFault -/

@[simp] theorem takeFault_v (f : CoreFault) (w : Word) (s : State) : (takeFault f w s).v = s.v := rfl
@[simp] theorem takeFault_i (f : CoreFault) (w : Word) (s : State) : (takeFault f w s).i = s.i := rfl
@[simp] theorem takeFault_pc (f : CoreFault) (w : Word) (s : State) : (takeFault f w s).pc = s.pc := rfl
@[simp] theorem takeFault_stack (f : CoreFault) (w : Word) (s : State) : (takeFault f w s).stack = s.stack := rfl
@[simp] theorem takeFault_sp (f : CoreFault) (w : Word) (s : State) : (takeFault f w s).sp = s.sp := rfl
@[simp] theorem takeFault_dt (f : CoreFault) (w : Word) (s : State) : (takeFault f w s).dt = s.dt := rfl
@[simp] theorem takeFault_st (f : CoreFault) (w : Word) (s : State) : (takeFault f w s).st = s.st := rfl
@[simp] theorem takeFault_mem (f : CoreFault) (w : Word) (s : State) : (takeFault f w s).mem = s.mem := rfl
@[simp] theorem takeFault_disp (f : CoreFault) (w : Word) (s : State) : (takeFault f w s).disp = s.disp := rfl
@[simp] theorem takeFault_redrawPending (f : CoreFault) (w : Word) (s : State) : (takeFault f w s).redrawPending = s.redrawPending := rfl
@[simp] theorem takeFault_keys (f : CoreFault) (w : Word) (s : State) : (takeFault f w s).keys = s.keys := rfl
@[simp] theorem takeFault_blockingInput (f : CoreFault) (w : Word) (s : State) : (takeFault f w s).blockingInput = s.blockingInput := rfl
@[simp] theorem takeFault_blockingTarget (f : CoreFault) (w : Word) (s : State) : (takeFault f w s).blockingTarget = s.blockingTarget := rfl
@[simp] theorem takeFault_fault (f : CoreFault) (w : Word) (s : State) : (takeFault f w s).fault = { code := faultCode f, opcode := w, pc := s.pc } := rfl
@[simp] theorem takeFault_illegal (f : CoreFault) (w : Word) (s : State) : (takeFault f w s).illegal = s.illegal := rfl
@[simp] theorem takeFault_cfg (f : CoreFault) (w : Word) (s : State) : (takeFault f w s).cfg = s.cfg := rfl
@[simp] theorem takeFault_draws (f : CoreFault) (w : Word) (s : State) : (takeFault f w s).draws = s.draws := rfl

/-! ### pushReturn -/

@[simp] theorem pushReturn_v (s : State) (w : Word) : (pushReturn s w).v = s.v := rfl
@[simp] theorem pushReturn_i (s : State) (w : Word) : (pushReturn s w).i = s.i := rfl
@[simp] theorem pushReturn_pc (s : State) (w : Word) : (pushReturn s w).pc = s.pc := rfl
@[simp] theorem pushReturn_stack (s : State) (w : Word) : (pushReturn s w).stack = s.stack.setIfInBounds s.sp.toNat w := rfl
@[simp] theorem pushReturn_sp (s : State) (w : Word) : (pushReturn s w).sp = s.sp + 1 := rfl
@[simp] theorem pushReturn_dt (s : State) (w : Word) : (pushReturn s w).dt = s.dt := rfl
@[simp] theorem pushReturn_st (s : State) (w : Word) : (pushReturn s w).st = s.st := rfl
@[simp] theorem pushReturn_mem (s : State) (w : Word) : (pushReturn s w).mem = s.mem := rfl
@[simp] theorem pushReturn_disp (s : State) (w : Word) : (pushReturn s w).disp = s.disp := rfl
@[simp] theorem pushReturn_redrawPending (s : State) (w : Word) : (pushReturn s w).redrawPending = s.redrawPending := rfl
@[simp] theorem pushReturn_keys (s : State) (w : Word) : (pushReturn s w).keys = s.keys := rfl
@[simp] theorem pushReturn_blockingInput (s : State) (w : Word) : (pushReturn s w).blockingInput = s.blockingInput := rfl
@[simp] theorem pushReturn_blockingTarget (s : State) (w : Word) : (pushReturn s w).blockingTarget = s.blockingTarget := rfl
@[simp] theorem pushReturn_fault (s : State) (w : Word) : (pushReturn s w).fault = s.fault := rfl
@[simp] theorem pushReturn_illegal (s : State) (w : Word) : (pushReturn s w).illegal = s.illegal := rfl
@[simp] theorem pushReturn_cfg (s : State) (w : Word) : (pushReturn s w).cfg = s.cfg := rfl
@[simp] theorem pushReturn_draws (s : State) (w : Word) : (pushReturn s w).draws = s.draws := rfl

/-! ### popSp -/

@[simp] theorem popSp_v (s : State) : (popSp s).v = s.v := rfl
@[simp] theorem popSp_i (s : State) : (popSp s).i = s.i := rfl
@[simp] theorem popSp_pc (s : State) : (popSp s).pc = s.pc := rfl
@[simp] theorem popSp_stack (s : State) : (popSp s).stack = s.stack := rfl
@[simp] theorem popSp_sp (s : State) : (popSp s).sp = s.sp - 1 := rfl
@[simp] theorem popSp_dt (s : State) : (popSp s).dt = s.dt := rfl
@[simp] theorem popSp_st (s : State) : (popSp s).st = s.st := rfl
@[simp] theorem popSp_mem (s : State) : (popSp s).mem = s.mem := rfl
@[simp] theorem popSp_disp (s : State) : (popSp s).disp = s.disp := rfl
@[simp] theorem popSp_redrawPending (s : State) : (popSp s).redrawPending = s.redrawPending := rfl
@[simp] theorem popSp_keys (s : State) : (popSp s).keys = s.keys := rfl
@[simp] theorem popSp_blockingInput (s : State) : (popSp s).blockingInput = s.blockingInput := rfl
@[simp] theorem popSp_blockingTarget (s : State) : (popSp s).blockingTarget = s.blockingTarget := rfl
@[simp] theorem popSp_fault (s : State) : (popSp s).fault = s.fault := rfl
@[simp] theorem popSp_illegal (s : State) : (popSp s).illegal = s.illegal := rfl
@[simp] theorem popSp_cfg (s : State) : (popSp s).cfg = s.cfg := rfl
@[simp] theorem popSp_draws (s : State) : (popSp s).draws = s.draws := rfl

/-! ### decrementTimers -/

@[simp] theorem decrementTimers_v (s : State) : (decrementTimers s).v = s.v := rfl
@[simp] theorem decrementTimers_i (s : State) : (decrementTimers s).i = s.i := rfl
@[simp] theorem decrementTimers_pc (s : State) : (decrementTimers s).pc = s.pc := rfl
@[simp] theorem decrementTimers_stack (s : State) : (decrementTimers s).stack = s.stack := rfl
@[simp] theorem decrementTimers_sp (s : State) : (decrementTimers s).sp = s.sp := rfl
@[simp] theorem decrementTimers_dt (s : State) : (decrementTimers s).dt = decrementTimer s.dt := rfl
@[simp] theorem decrementTimers_st (s : State) : (decrementTimers s).st = decrementTimer s.st := rfl
@[simp] theorem decrementTimers_mem (s : State) : (decrementTimers s).mem = s.mem := rfl
@[simp] theorem decrementTimers_disp (s : State) : (decrementTimers s).disp = s.disp := rfl
@[simp] theorem decrementTimers_redrawPending (s : State) : (decrementTimers s).redrawPending = s.redrawPending := rfl
@[simp] theorem decrementTimers_keys (s : State) : (decrementTimers s).keys = s.keys := rfl
@[simp] theorem decrementTimers_blockingInput (s : State) : (decrementTimers s).blockingInput = s.blockingInput := rfl
@[simp] theorem decrementTimers_blockingTarget (s : State) : (decrementTimers s).blockingTarget = s.blockingTarget := rfl
@[simp] theorem decrementTimers_fault (s : State) : (decrementTimers s).fault = s.fault := rfl
@[simp] theorem decrementTimers_illegal (s : State) : (decrementTimers s).illegal = s.illegal := rfl
@[simp] theorem decrementTimers_cfg (s : State) : (decrementTimers s).cfg = s.cfg := rfl
@[simp] theorem decrementTimers_draws (s : State) : (decrementTimers s).draws = s.draws := rfl

/-! ### setResultThenFlag -/

@[simp] theorem setResultThenFlag_v (s : State) (x : RegIdx) (r f : Byte) : (setResultThenFlag s x r f).v = (s.v.set x.val r).set 15 f := rfl
@[simp] theorem setResultThenFlag_i (s : State) (x : RegIdx) (r f : Byte) : (setResultThenFlag s x r f).i = s.i := rfl
@[simp] theorem setResultThenFlag_pc (s : State) (x : RegIdx) (r f : Byte) : (setResultThenFlag s x r f).pc = s.pc := rfl
@[simp] theorem setResultThenFlag_stack (s : State) (x : RegIdx) (r f : Byte) : (setResultThenFlag s x r f).stack = s.stack := rfl
@[simp] theorem setResultThenFlag_sp (s : State) (x : RegIdx) (r f : Byte) : (setResultThenFlag s x r f).sp = s.sp := rfl
@[simp] theorem setResultThenFlag_dt (s : State) (x : RegIdx) (r f : Byte) : (setResultThenFlag s x r f).dt = s.dt := rfl
@[simp] theorem setResultThenFlag_st (s : State) (x : RegIdx) (r f : Byte) : (setResultThenFlag s x r f).st = s.st := rfl
@[simp] theorem setResultThenFlag_mem (s : State) (x : RegIdx) (r f : Byte) : (setResultThenFlag s x r f).mem = s.mem := rfl
@[simp] theorem setResultThenFlag_disp (s : State) (x : RegIdx) (r f : Byte) : (setResultThenFlag s x r f).disp = s.disp := rfl
@[simp] theorem setResultThenFlag_redrawPending (s : State) (x : RegIdx) (r f : Byte) : (setResultThenFlag s x r f).redrawPending = s.redrawPending := rfl
@[simp] theorem setResultThenFlag_keys (s : State) (x : RegIdx) (r f : Byte) : (setResultThenFlag s x r f).keys = s.keys := rfl
@[simp] theorem setResultThenFlag_blockingInput (s : State) (x : RegIdx) (r f : Byte) : (setResultThenFlag s x r f).blockingInput = s.blockingInput := rfl
@[simp] theorem setResultThenFlag_blockingTarget (s : State) (x : RegIdx) (r f : Byte) : (setResultThenFlag s x r f).blockingTarget = s.blockingTarget := rfl
@[simp] theorem setResultThenFlag_fault (s : State) (x : RegIdx) (r f : Byte) : (setResultThenFlag s x r f).fault = s.fault := rfl
@[simp] theorem setResultThenFlag_illegal (s : State) (x : RegIdx) (r f : Byte) : (setResultThenFlag s x r f).illegal = s.illegal := rfl
@[simp] theorem setResultThenFlag_cfg (s : State) (x : RegIdx) (r f : Byte) : (setResultThenFlag s x r f).cfg = s.cfg := rfl
@[simp] theorem setResultThenFlag_draws (s : State) (x : RegIdx) (r f : Byte) : (setResultThenFlag s x r f).draws = s.draws := rfl

/-! ### setKey -/

@[simp] theorem setKey_v (k : KeyIdx) (b : Bool) (s : State) : (setKey k b s).v = s.v := rfl
@[simp] theorem setKey_i (k : KeyIdx) (b : Bool) (s : State) : (setKey k b s).i = s.i := rfl
@[simp] theorem setKey_pc (k : KeyIdx) (b : Bool) (s : State) : (setKey k b s).pc = s.pc := rfl
@[simp] theorem setKey_stack (k : KeyIdx) (b : Bool) (s : State) : (setKey k b s).stack = s.stack := rfl
@[simp] theorem setKey_sp (k : KeyIdx) (b : Bool) (s : State) : (setKey k b s).sp = s.sp := rfl
@[simp] theorem setKey_dt (k : KeyIdx) (b : Bool) (s : State) : (setKey k b s).dt = s.dt := rfl
@[simp] theorem setKey_st (k : KeyIdx) (b : Bool) (s : State) : (setKey k b s).st = s.st := rfl
@[simp] theorem setKey_mem (k : KeyIdx) (b : Bool) (s : State) : (setKey k b s).mem = s.mem := rfl
@[simp] theorem setKey_disp (k : KeyIdx) (b : Bool) (s : State) : (setKey k b s).disp = s.disp := rfl
@[simp] theorem setKey_redrawPending (k : KeyIdx) (b : Bool) (s : State) : (setKey k b s).redrawPending = s.redrawPending := rfl
@[simp] theorem setKey_keys (k : KeyIdx) (b : Bool) (s : State) : (setKey k b s).keys = s.keys.set k.val b := rfl
@[simp] theorem setKey_blockingInput (k : KeyIdx) (b : Bool) (s : State) : (setKey k b s).blockingInput = s.blockingInput := rfl
@[simp] theorem setKey_blockingTarget (k : KeyIdx) (b : Bool) (s : State) : (setKey k b s).blockingTarget = s.blockingTarget := rfl
@[simp] theorem setKey_fault (k : KeyIdx) (b : Bool) (s : State) : (setKey k b s).fault = s.fault := rfl
@[simp] theorem setKey_illegal (k : KeyIdx) (b : Bool) (s : State) : (setKey k b s).illegal = s.illegal := rfl
@[simp] theorem setKey_cfg (k : KeyIdx) (b : Bool) (s : State) : (setKey k b s).cfg = s.cfg := rfl
@[simp] theorem setKey_draws (k : KeyIdx) (b : Bool) (s : State) : (setKey k b s).draws = s.draws := rfl

/-! ### ackRedraw -/

@[simp] theorem ackRedraw_v (s : State) : (ackRedraw s).v = s.v := rfl
@[simp] theorem ackRedraw_i (s : State) : (ackRedraw s).i = s.i := rfl
@[simp] theorem ackRedraw_pc (s : State) : (ackRedraw s).pc = s.pc := rfl
@[simp] theorem ackRedraw_stack (s : State) : (ackRedraw s).stack = s.stack := rfl
@[simp] theorem ackRedraw_sp (s : State) : (ackRedraw s).sp = s.sp := rfl
@[simp] theorem ackRedraw_dt (s : State) : (ackRedraw s).dt = s.dt := rfl
@[simp] theorem ackRedraw_st (s : State) : (ackRedraw s).st = s.st := rfl
@[simp] theorem ackRedraw_mem (s : State) : (ackRedraw s).mem = s.mem := rfl
@[simp] theorem ackRedraw_disp (s : State) : (ackRedraw s).disp = s.disp := rfl
@[simp] theorem ackRedraw_redrawPending (s : State) : (ackRedraw s).redrawPending = false := rfl
@[simp] theorem ackRedraw_keys (s : State) : (ackRedraw s).keys = s.keys := rfl
@[simp] theorem ackRedraw_blockingInput (s : State) : (ackRedraw s).blockingInput = s.blockingInput := rfl
@[simp] theorem ackRedraw_blockingTarget (s : State) : (ackRedraw s).blockingTarget = s.blockingTarget := rfl
@[simp] theorem ackRedraw_fault (s : State) : (ackRedraw s).fault = s.fault := rfl
@[simp] theorem ackRedraw_illegal (s : State) : (ackRedraw s).illegal = s.illegal := rfl
@[simp] theorem ackRedraw_cfg (s : State) : (ackRedraw s).cfg = s.cfg := rfl
@[simp] theorem ackRedraw_draws (s : State) : (ackRedraw s).draws = s.draws := rfl

/-! ### writeBytes -/

@[simp] theorem writeBytes_v (s : State) (a : Nat) (bs : List Byte) : (writeBytes s a bs).v = s.v := by
  induction bs generalizing s a with
  | nil => rfl
  | cons _ _ ih => simp [writeBytes, ih]
@[simp] theorem writeBytes_i (s : State) (a : Nat) (bs : List Byte) : (writeBytes s a bs).i = s.i := by
  induction bs generalizing s a with
  | nil => rfl
  | cons _ _ ih => simp [writeBytes, ih]
@[simp] theorem writeBytes_pc (s : State) (a : Nat) (bs : List Byte) : (writeBytes s a bs).pc = s.pc := by
  induction bs generalizing s a with
  | nil => rfl
  | cons _ _ ih => simp [writeBytes, ih]
@[simp] theorem writeBytes_stack (s : State) (a : Nat) (bs : List Byte) : (writeBytes s a bs).stack = s.stack := by
  induction bs generalizing s a with
  | nil => rfl
  | cons _ _ ih => simp [writeBytes, ih]
@[simp] theorem writeBytes_sp (s : State) (a : Nat) (bs : List Byte) : (writeBytes s a bs).sp = s.sp := by
  induction bs generalizing s a with
  | nil => rfl
  | cons _ _ ih => simp [writeBytes, ih]
@[simp] theorem writeBytes_dt (s : State) (a : Nat) (bs : List Byte) : (writeBytes s a bs).dt = s.dt := by
  induction bs generalizing s a with
  | nil => rfl
  | cons _ _ ih => simp [writeBytes, ih]
@[simp] theorem writeBytes_st (s : State) (a : Nat) (bs : List Byte) : (writeBytes s a bs).st = s.st := by
  induction bs generalizing s a with
  | nil => rfl
  | cons _ _ ih => simp [writeBytes, ih]
@[simp] theorem writeBytes_disp (s : State) (a : Nat) (bs : List Byte) : (writeBytes s a bs).disp = s.disp := by
  induction bs generalizing s a with
  | nil => rfl
  | cons _ _ ih => simp [writeBytes, ih]
@[simp] theorem writeBytes_redrawPending (s : State) (a : Nat) (bs : List Byte) : (writeBytes s a bs).redrawPending = s.redrawPending := by
  induction bs generalizing s a with
  | nil => rfl
  | cons _ _ ih => simp [writeBytes, ih]
@[simp] theorem writeBytes_keys (s : State) (a : Nat) (bs : List Byte) : (writeBytes s a bs).keys = s.keys := by
  induction bs generalizing s a with
  | nil => rfl
  | cons _ _ ih => simp [writeBytes, ih]
@[simp] theorem writeBytes_blockingInput (s : State) (a : Nat) (bs : List Byte) : (writeBytes s a bs).blockingInput = s.blockingInput := by
  induction bs generalizing s a with
  | nil => rfl
  | cons _ _ ih => simp [writeBytes, ih]
@[simp] theorem writeBytes_blockingTarget (s : State) (a : Nat) (bs : List Byte) : (writeBytes s a bs).blockingTarget = s.blockingTarget := by
  induction bs generalizing s a with
  | nil => rfl
  | cons _ _ ih => simp [writeBytes, ih]
@[simp] theorem writeBytes_fault (s : State) (a : Nat) (bs : List Byte) : (writeBytes s a bs).fault = s.fault := by
  induction bs generalizing s a with
  | nil => rfl
  | cons _ _ ih => simp [writeBytes, ih]
@[simp] theorem writeBytes_illegal (s : State) (a : Nat) (bs : List Byte) : (writeBytes s a bs).illegal = s.illegal := by
  induction bs generalizing s a with
  | nil => rfl
  | cons _ _ ih => simp [writeBytes, ih]
@[simp] theorem writeBytes_cfg (s : State) (a : Nat) (bs : List Byte) : (writeBytes s a bs).cfg = s.cfg := by
  induction bs generalizing s a with
  | nil => rfl
  | cons _ _ ih => simp [writeBytes, ih]
@[simp] theorem writeBytes_draws (s : State) (a : Nat) (bs : List Byte) : (writeBytes s a bs).draws = s.draws := by
  induction bs generalizing s a with
  | nil => rfl
  | cons _ _ ih => simp [writeBytes, ih]

/-! ### loadRegs -/

@[simp] theorem loadRegs_i (s : State) (a : Nat) (ks : List RegIdx) : (loadRegs s a ks).i = s.i := by
  induction ks generalizing s with
  | nil => rfl
  | cons _ _ ih => simp [loadRegs, ih]
@[simp] theorem loadRegs_pc (s : State) (a : Nat) (ks : List RegIdx) : (loadRegs s a ks).pc = s.pc := by
  induction ks generalizing s with
  | nil => rfl
  | cons _ _ ih => simp [loadRegs, ih]
@[simp] theorem loadRegs_stack (s : State) (a : Nat) (ks : List RegIdx) : (loadRegs s a ks).stack = s.stack := by
  induction ks generalizing s with
  | nil => rfl
  | cons _ _ ih => simp [loadRegs, ih]
@[simp] theorem loadRegs_sp (s : State) (a : Nat) (ks : List RegIdx) : (loadRegs s a ks).sp = s.sp := by
  induction ks generalizing s with
  | nil => rfl
  | cons _ _ ih => simp [loadRegs, ih]
@[simp] theorem loadRegs_dt (s : State) (a : Nat) (ks : List RegIdx) : (loadRegs s a ks).dt = s.dt := by
  induction ks generalizing s with
  | nil => rfl
  | cons _ _ ih => simp [loadRegs, ih]
@[simp] theorem loadRegs_st (s : State) (a : Nat) (ks : List RegIdx) : (loadRegs s a ks).st = s.st := by
  induction ks generalizing s with
  | nil => rfl
  | cons _ _ ih => simp [loadRegs, ih]
@[simp] theorem loadRegs_mem (s : State) (a : Nat) (ks : List RegIdx) : (loadRegs s a ks).mem = s.mem := by
  induction ks generalizing s with
  | nil => rfl
  | cons _ _ ih => simp [loadRegs, ih]
@[simp] theorem loadRegs_disp (s : State) (a : Nat) (ks : List RegIdx) : (loadRegs s a ks).disp = s.disp := by
  induction ks generalizing s with
  | nil => rfl
  | cons _ _ ih => simp [loadRegs, ih]
@[simp] theorem loadRegs_redrawPending (s : State) (a : Nat) (ks : List RegIdx) : (loadRegs s a ks).redrawPending = s.redrawPending := by
  induction ks generalizing s with
  | nil => rfl
  | cons _ _ ih => simp [loadRegs, ih]
@[simp] theorem loadRegs_keys (s : State) (a : Nat) (ks : List RegIdx) : (loadRegs s a ks).keys = s.keys := by
  induction ks generalizing s with
  | nil => rfl
  | cons _ _ ih => simp [loadRegs, ih]
@[simp] theorem loadRegs_blockingInput (s : State) (a : Nat) (ks : List RegIdx) : (loadRegs s a ks).blockingInput = s.blockingInput := by
  induction ks generalizing s with
  | nil => rfl
  | cons _ _ ih => simp [loadRegs, ih]
@[simp] theorem loadRegs_blockingTarget (s : State) (a : Nat) (ks : List RegIdx) : (loadRegs s a ks).blockingTarget = s.blockingTarget := by
  induction ks generalizing s with
  | nil => rfl
  | cons _ _ ih => simp [loadRegs, ih]
@[simp] theorem loadRegs_fault (s : State) (a : Nat) (ks : List RegIdx) : (loadRegs s a ks).fault = s.fault := by
  induction ks generalizing s with
  | nil => rfl
  | cons _ _ ih => simp [loadRegs, ih]
@[simp] theorem loadRegs_illegal (s : State) (a : Nat) (ks : List RegIdx) : (loadRegs s a ks).illegal = s.illegal := by
  induction ks generalizing s with
  | nil => rfl
  | cons _ _ ih => simp [loadRegs, ih]
@[simp] theorem loadRegs_cfg (s : State) (a : Nat) (ks : List RegIdx) : (loadRegs s a ks).cfg = s.cfg := by
  induction ks generalizing s with
  | nil => rfl
  | cons _ _ ih => simp [loadRegs, ih]
@[simp] theorem loadRegs_draws (s : State) (a : Nat) (ks : List RegIdx) : (loadRegs s a ks).draws = s.draws := by
  induction ks generalizing s with
  | nil => rfl
  | cons _ _ ih => simp [loadRegs, ih]

/-! ### skipIf -/

@[simp] theorem skipIf_v (c : Bool) (s : State) : (skipIf c s).v = s.v := by cases c <;> rfl
@[simp] theorem skipIf_i (c : Bool) (s : State) : (skipIf c s).i = s.i := by cases c <;> rfl
@[simp] theorem skipIf_pc (c : Bool) (s : State) : (skipIf c s).pc = if c then s.pc + 2 else s.pc := by cases c <;> rfl
@[simp] theorem skipIf_stack (c : Bool) (s : State) : (skipIf c s).stack = s.stack := by cases c <;> rfl
@[simp] theorem skipIf_sp (c : Bool) (s : State) : (skipIf c s).sp = s.sp := by cases c <;> rfl
@[simp] theorem skipIf_dt (c : Bool) (s : State) : (skipIf c s).dt = s.dt := by cases c <;> rfl
@[simp] theorem skipIf_st (c : Bool) (s : State) : (skipIf c s).st = s.st := by cases c <;> rfl
@[simp] theorem skipIf_mem (c : Bool) (s : State) : (skipIf c s).mem = s.mem := by cases c <;> rfl
@[simp] theorem skipIf_disp (c : Bool) (s : State) : (skipIf c s).disp = s.disp := by cases c <;> rfl
@[simp] theorem skipIf_redrawPending (c : Bool) (s : State) : (skipIf c s).redrawPending = s.redrawPending := by cases c <;> rfl
@[simp] theorem skipIf_keys (c : Bool) (s : State) : (skipIf c s).keys = s.keys := by cases c <;> rfl
@[simp] theorem skipIf_blockingInput (c : Bool) (s : State) : (skipIf c s).blockingInput = s.blockingInput := by cases c <;> rfl
@[simp] theorem skipIf_blockingTarget (c : Bool) (s : State) : (skipIf c s).blockingTarget = s.blockingTarget := by cases c <;> rfl
@[simp] theorem skipIf_fault (c : Bool) (s : State) : (skipIf c s).fault = s.fault := by cases c <;> rfl
@[simp] theorem skipIf_illegal (c : Bool) (s : State) : (skipIf c s).illegal = s.illegal := by cases c <;> rfl
@[simp] theorem skipIf_cfg (c : Bool) (s : State) : (skipIf c s).cfg = s.cfg := by cases c <;> rfl
@[simp] theorem skipIf_draws (c : Bool) (s : State) : (skipIf c s).draws = s.draws := by cases c <;> rfl

/-! ### Accessors -/

/-- Reading a register of two states with the same register file. -/
theorem getV_congr {s t : State} (h : t.v = s.v) (x : RegIdx) : getV t x = getV s x := by simp [getV, h]

/-- Reading a byte of two states with the same memory and the same font. -/
theorem readByte_congr {s t : State} (hm : t.mem = s.mem) (hc : t.cfg = s.cfg) (a : Nat) : readByte t a = readByte s a := by
  simp [readByte, hm, hc]

/-! An update that leaves the registers or the memory alone leaves every read of them alone. -/

@[simp] theorem getV_advance (s : State) (reg : RegIdx) : getV (advance s) reg = getV s reg := rfl
@[simp] theorem getV_setI (s : State) (w : Word) (reg : RegIdx) : getV (setI s w) reg = getV s reg := rfl
@[simp] theorem getV_setDT (s : State) (b : Byte) (reg : RegIdx) : getV (setDT s b) reg = getV s reg := rfl
@[simp] theorem getV_setST (s : State) (b : Byte) (reg : RegIdx) : getV (setST s b) reg = getV s reg := rfl
@[simp] theorem getV_setDisplay (s : State) (d : Display) (reg : RegIdx) : getV (setDisplay s d) reg = getV s reg := rfl
@[simp] theorem getV_countDraw (s : State) (reg : RegIdx) : getV (countDraw s) reg = getV s reg := rfl
@[simp] theorem getV_enterWait (s : State) (x : RegIdx) (reg : RegIdx) : getV (enterWait s x) reg = getV s reg := rfl
@[simp] theorem getV_leaveWait (s : State) (reg : RegIdx) : getV (leaveWait s) reg = getV s reg := rfl
@[simp] theorem getV_reportIllegal (s : State) (op a : Word) (reg : RegIdx) : getV (reportIllegal s op a) reg = getV s reg := rfl
@[simp] theorem getV_jumpTo (s : State) (t : Word) (reg : RegIdx) : getV (jumpTo s t) reg = getV s reg := rfl
@[simp] theorem getV_writeByte (s : State) (a : Nat) (b : Byte) (reg : RegIdx) : getV (writeByte s a b) reg = getV s reg := rfl
@[simp] theorem getV_takeFault (f : CoreFault) (w : Word) (s : State) (reg : RegIdx) : getV (takeFault f w s) reg = getV s reg := rfl
@[simp] theorem getV_pushReturn (s : State) (w : Word) (reg : RegIdx) : getV (pushReturn s w) reg = getV s reg := rfl
@[simp] theorem getV_popSp (s : State) (reg : RegIdx) : getV (popSp s) reg = getV s reg := rfl
@[simp] theorem getV_decrementTimers (s : State) (reg : RegIdx) : getV (decrementTimers s) reg = getV s reg := rfl
@[simp] theorem getV_setKey (k : KeyIdx) (b : Bool) (s : State) (reg : RegIdx) : getV (setKey k b s) reg = getV s reg := rfl
@[simp] theorem getV_ackRedraw (s : State) (reg : RegIdx) : getV (ackRedraw s) reg = getV s reg := rfl
@[simp] theorem getV_writeBytes (s : State) (a : Nat) (bs : List Byte) (k : RegIdx) : getV (writeBytes s a bs) k = getV s k :=
  getV_congr (by simp) k
@[simp] theorem getV_skipIf (c : Bool) (s : State) (k : RegIdx) : getV (skipIf c s) k = getV s k := by cases c <;> rfl
@[simp] theorem readByte_setV (s : State) (x : RegIdx) (b : Byte) (adr : Nat) : readByte (setV s x b) adr = readByte s adr := rfl
@[simp] theorem readByte_advance (s : State) (adr : Nat) : readByte (advance s) adr = readByte s adr := rfl
@[simp] theorem readByte_setI (s : State) (w : Word) (adr : Nat) : readByte (setI s w) adr = readByte s adr := rfl
@[simp] theorem readByte_setDT (s : State) (b : Byte) (adr : Nat) : readByte (setDT s b) adr = readByte s adr := rfl
@[simp] theorem readByte_setST (s : State) (b : Byte) (adr : Nat) : readByte (setST s b) adr = readByte s adr := rfl
@[simp] theorem readByte_setDisplay (s : State) (d : Display) (adr : Nat) : readByte (setDisplay s d) adr = readByte s adr := rfl
@[simp] theorem readByte_countDraw (s : State) (adr : Nat) : readByte (countDraw s) adr = readByte s adr := rfl
@[simp] theorem readByte_enterWait (s : State) (x : RegIdx) (adr : Nat) : readByte (enterWait s x) adr = readByte s adr := rfl
@[simp] theorem readByte_leaveWait (s : State) (adr : Nat) : readByte (leaveWait s) adr = readByte s adr := rfl
@[simp] theorem readByte_reportIllegal (s : State) (op a : Word) (adr : Nat) : readByte (reportIllegal s op a) adr = readByte s adr := rfl
@[simp] theorem readByte_jumpTo (s : State) (t : Word) (adr : Nat) : readByte (jumpTo s t) adr = readByte s adr := rfl
@[simp] theorem readByte_takeFault (f : CoreFault) (w : Word) (s : State) (adr : Nat) : readByte (takeFault f w s) adr = readByte s adr := rfl
@[simp] theorem readByte_pushReturn (s : State) (w : Word) (adr : Nat) : readByte (pushReturn s w) adr = readByte s adr := rfl
@[simp] theorem readByte_popSp (s : State) (adr : Nat) : readByte (popSp s) adr = readByte s adr := rfl
@[simp] theorem readByte_decrementTimers (s : State) (adr : Nat) : readByte (decrementTimers s) adr = readByte s adr := rfl
@[simp] theorem readByte_setResultThenFlag (s : State) (x : RegIdx) (r f : Byte) (adr : Nat) : readByte (setResultThenFlag s x r f) adr = readByte s adr := rfl
@[simp] theorem readByte_setKey (k : KeyIdx) (b : Bool) (s : State) (adr : Nat) : readByte (setKey k b s) adr = readByte s adr := rfl
@[simp] theorem readByte_ackRedraw (s : State) (adr : Nat) : readByte (ackRedraw s) adr = readByte s adr := rfl
@[simp] theorem readByte_loadRegs (s : State) (a : Nat) (ks : List RegIdx) (adr : Nat) :
    readByte (loadRegs s a ks) adr = readByte s adr := readByte_congr (by simp) (by simp) adr
@[simp] theorem readByte_skipIf (c : Bool) (s : State) (adr : Nat) : readByte (skipIf c s) adr = readByte s adr := by
  cases c <;> rfl

/-- A written register reads as written, every other as before; no register is hard-wired (R20). -/
theorem getV_setV (s : State) (x y : RegIdx) (b : Byte) : getV (setV s x b) y = if y = x then b else getV s y := by
  simp only [getV, setV, Vector.getElem_set, Fin.ext_iff, eq_comm]

@[simp] theorem getV_setV_same (s : State) (x : RegIdx) (b : Byte) : getV (setV s x b) x = b := by simp [getV_setV]

theorem getV_setV_other (s : State) {x y : RegIdx} (b : Byte) (h : y ≠ x) : getV (setV s x b) y = getV s y := by
  simp [getV_setV, h]

/-- The flag is written last, so it is what `VF` holds (R200). -/
theorem getV_setResultThenFlag (s : State) (x y : RegIdx) (r f : Byte) :
    getV (setResultThenFlag s x r f) y = if y = 0xF then f else if y = x then r else getV s y := by
  simp [setResultThenFlag, getV_setV]

/-- A written cell reads as written, every other as before (R32). -/
theorem getPixel_setPixel (d : Display) (x px : Fin 64) (y py : Fin 32) (b : Bool) :
    getPixel (setPixel d x y b) px py = if px = x ∧ py = y then b else getPixel d px py := by
  unfold getPixel setPixel
  simp only [Vector.getElem_set]
  by_cases hy : y = py
  · subst hy
    by_cases hx : x = px
    · subst hx; simp
    · have : px ≠ x := fun e => hx e.symm
      simp [this, Fin.ext_iff.not.mp hx]
  · have h1 : py ≠ y := fun e => hy e.symm
    have h2 : y.val ≠ py.val := Fin.ext_iff.not.mp hy
    simp [h1, h2]

@[simp] theorem getPixel_blankDisplay (x : Fin 64) (y : Fin 32) : getPixel blankDisplay x y = false := by
  simp [getPixel, blankDisplay]

end Sys2Proof.Machine
end

