-- ==== Sys2Proof/Laws/Memory.lean ====
section
/-! SUPPORT. The laws of memory: a read after a write, the canonical form, and what the address checks answer. -/

namespace Sys2Proof.Machine

/-! ### One byte -/

theorem memRead_memInsert (font : FontTable) (m : Memory) (a a' : Nat) (b : Byte) :
    memRead font (memInsert m a b) a' = if a' = a then b else memRead font m a' := by
  induction m with
  | nil => simp [memInsert, memRead, eq_comm]
  | cons c rest ih =>
    unfold memInsert
    split
    · by_cases hc : c.1 = a'
      · simp [memRead, hc, show a' ≠ a by omega]
      · simp [memRead, hc, ih]
    · split
      · by_cases ha : a' = a
        · simp [memRead, ha]
        · simp [memRead, ha, show ¬ a = a' from fun e => ha e.symm, show ¬ c.1 = a' by omega]
      · by_cases ha : a' = a
        · simp [memRead, ha]
        · simp [memRead, ha, show ¬ a = a' from fun e => ha e.symm]

theorem memRead_memErase (font : FontTable) (m : Memory) (a a' : Nat) :
    memRead font (memErase m a) a' = if a' = a then unlistedByte font a' else memRead font m a' := by
  induction m with
  | nil => simp [memErase, memRead]
  | cons c rest ih =>
    unfold memErase at ih ⊢
    by_cases hc : c.1 = a
    · simp only [List.filter_cons, hc, bne_self_eq_false, Bool.false_eq_true, if_false, ih]
      by_cases ha : a' = a
      · simp [ha]
      · simp [ha, memRead, hc, show ¬ a = a' from fun e => ha e.symm]
    · simp only [List.filter_cons, show (c.1 != a) = true by simp [hc], if_true]
      by_cases hca : c.1 = a'
      · simp [memRead, hca, show a' ≠ a by omega]
      · simp [memRead, hca, ih]

/-- A read after a write: the written address gives the byte, every other address what it gave before (R69, R73). -/
theorem memRead_memWrite (font : FontTable) (m : Memory) (a a' : Nat) (b : Byte) :
    memRead font (memWrite font m a b) a' = if a' = a then b else memRead font m a' := by
  unfold memWrite
  split
  · rename_i h
    rw [memRead_memErase]
    by_cases ha : a' = a
    · simp [ha, h]
    · simp [ha]
  · rw [memRead_memInsert]

theorem readByte_writeByte (s : State) (a a' : Nat) (b : Byte) :
    readByte (writeByte s a b) a' = if a' = a then b else readByte s a' :=
  memRead_memWrite _ _ _ _ _

/-! ### The canonical form -/

theorem memErase_wf {font : FontTable} {m : Memory} (h : Memory.wf font m) (a : Nat) : Memory.wf font (memErase m a) :=
  ⟨h.1.filter _, fun c hc => h.2 c (List.mem_of_mem_filter hc)⟩

theorem mem_memInsert {m : Memory} {a : Nat} {b : Byte} {c : Host.Cell} (h : c ∈ memInsert m a b) :
    c = (a, b) ∨ c ∈ m := by
  induction m with
  | nil => simpa [memInsert] using h
  | cons d rest ih =>
    unfold memInsert at h
    split at h
    · rcases List.mem_cons.mp h with rfl | h
      · simp
      · rcases ih h with rfl | h <;> simp [*]
    · split at h
      · rcases List.mem_cons.mp h with rfl | h <;> simp [*]
      · rcases List.mem_cons.mp h with rfl | h
        · simp
        · exact Or.inr h

theorem memInsert_rising {m : Memory} (h : m.Pairwise (fun c d => c.1 < d.1)) (a : Nat) (b : Byte) :
    (memInsert m a b).Pairwise (fun c d => c.1 < d.1) := by
  induction m with
  | nil => simp [memInsert]
  | cons d rest ih =>
    obtain ⟨hd, hr⟩ := List.pairwise_cons.mp h
    unfold memInsert
    split
    · refine List.pairwise_cons.mpr ⟨fun c hc => ?_, ih hr⟩
      rcases mem_memInsert hc with rfl | hc
      · assumption
      · exact hd c hc
    · split
      · rename_i hne heq
        exact List.pairwise_cons.mpr ⟨fun c hc => heq ▸ hd c hc, hr⟩
      · refine List.pairwise_cons.mpr ⟨fun c hc => ?_, h⟩
        rcases List.mem_cons.mp hc with rfl | hc
        · simp only; omega
        · have := hd c hc; simp only; omega

/-- A write to an address inside memory keeps the canonical form. -/
theorem memWrite_wf {font : FontTable} {m : Memory} (h : Memory.wf font m) {a : Nat} (ha : a < memSize) (b : Byte) :
    Memory.wf font (memWrite font m a b) := by
  unfold memWrite
  split
  · exact memErase_wf h a
  · rename_i hb
    refine ⟨memInsert_rising h.1 a b, fun c hc => ?_⟩
    rcases mem_memInsert hc with rfl | hc
    · exact ⟨ha, hb⟩
    · exact h.2 c hc

/-- An address below every listed one reads as unlisted. -/
theorem memRead_of_lt {font : FontTable} {m : Memory} {a : Nat} (h : ∀ c ∈ m, a < c.1) :
    memRead font m a = unlistedByte font a := by
  induction m with
  | nil => rfl
  | cons c rest ih =>
    have hc := h c (by simp)
    rw [memRead, if_neg (by omega)]
    exact ih (fun d hd => h d (by simp [hd]))

/-- Equal memories are equal data: two canonical memories that read alike are the same list. -/
theorem memory_ext {font : FontTable} {m m' : Memory} (h : Memory.wf font m) (h' : Memory.wf font m')
    (hr : ∀ a, memRead font m a = memRead font m' a) : m = m' := by
  induction m generalizing m' with
  | nil =>
    cases m' with
    | nil => rfl
    | cons d rest' =>
      have := hr d.1
      simp only [memRead, if_true] at this
      exact absurd this.symm (h'.2 d (by simp)).2
  | cons c rest ih =>
    obtain ⟨hc, hrest⟩ := List.pairwise_cons.mp h.1
    cases m' with
    | nil =>
      have := hr c.1
      simp only [memRead, if_true] at this
      exact absurd this (h.2 c (by simp)).2
    | cons d rest' =>
      obtain ⟨hd, hrest'⟩ := List.pairwise_cons.mp h'.1
      have hcd : c.1 = d.1 := by
        rcases Nat.lt_trichotomy c.1 d.1 with hlt | heq | hgt
        · have := hr c.1
          rw [memRead_of_lt (m := d :: rest') (fun e he => by
            rcases List.mem_cons.mp he with rfl | he
            · exact hlt
            · exact Nat.lt_trans hlt (hd e he))] at this
          simp only [memRead, if_true] at this
          exact absurd this (h.2 c (by simp)).2
        · exact heq
        · have := hr d.1
          rw [memRead_of_lt (m := c :: rest) (fun e he => by
            rcases List.mem_cons.mp he with rfl | he
            · exact hgt
            · exact Nat.lt_trans hgt (hc e he))] at this
          simp only [memRead, if_true] at this
          exact absurd this.symm (h'.2 d (by simp)).2
      have hb : c.2 = d.2 := by
        have := hr c.1
        simpa [memRead, hcd] using this
      have htail : rest = rest' := by
        refine ih ⟨hrest, fun e he => h.2 e (by simp [he])⟩ ⟨hrest', fun e he => h'.2 e (by simp [he])⟩ fun a => ?_
        have := hr a
        by_cases ha : c.1 = a
        · rw [memRead_of_lt (fun e he => ha ▸ hc e he), memRead_of_lt (fun e he => ha ▸ hcd ▸ hd e he)]
        · simpa [memRead, ha, hcd ▸ ha] using this
      rw [htail, Prod.ext hcd hb]

/-! ### Several bytes -/

/-- Bytes written from `a` upward: the `k`-th address of the run gives the `k`-th byte, any other what it gave before. -/
theorem readByte_writeBytes (bs : List Byte) : ∀ (s : State) (a a' : Nat),
    readByte (writeBytes s a bs) a' = if h : a ≤ a' ∧ a' - a < bs.length then bs[a' - a]'h.2 else readByte s a' := by
  induction bs with
  | nil => intro s a a'; simp [writeBytes]
  | cons b bs ih =>
    intro s a a'
    rw [writeBytes, ih, readByte_writeByte]
    rcases Nat.lt_trichotomy a' a with hlt | rfl | hgt
    · simp [show ¬ a + 1 ≤ a' by omega, show ¬ a ≤ a' by omega, show ¬ a' = a by omega]
    · simp [show ¬ a' + 1 ≤ a' by omega]
    · have h1 : a' - a = (a' - (a + 1)) + 1 := by omega
      by_cases h2 : a' - (a + 1) < bs.length
      · simp [show a + 1 ≤ a' by omega, show a ≤ a' by omega, h2, h1]
      · simp [show a + 1 ≤ a' by omega, show a ≤ a' by omega, h2, h1, show ¬ a' = a by omega]

/-- Bytes written inside memory keep the canonical form. -/
theorem writeBytes_wf (bs : List Byte) : ∀ (s : State) (a : Nat), Memory.wf s.cfg.fontTable s.mem → a + bs.length ≤ memSize →
    Memory.wf s.cfg.fontTable (writeBytes s a bs).mem := by
  induction bs with
  | nil => intro s a h _; exact h
  | cons b bs ih =>
    intro s a h ha
    simp only [List.length_cons] at ha
    exact ih (writeByte s a b) (a + 1) (memWrite_wf h (by omega) b) (by omega)

/-- The memory at construction is in canonical form. -/
theorem reset_memory_wf : Memory.wf State.reset.cfg.fontTable State.reset.mem := by decide

/-! ### The address checks (R66, R67, R313) -/

/-- A sequence of byte stores passes exactly when all of it lies in the writable region. -/
theorem checkWrites_none (n : Nat) : ∀ a, checkWrites a n = none ↔ (n = 0 ∨ programBase ≤ a ∧ a + n ≤ memSize) := by
  induction n with
  | zero => simp [checkWrites]
  | succ n ih =>
    intro a
    unfold checkWrites checkWrite
    by_cases h1 : memSize ≤ a
    · simp [h1, show ¬ (programBase ≤ a ∧ a + (n + 1) ≤ memSize) by omega]
    · by_cases h2 : a < programBase
      · simp [h1, h2, show ¬ (programBase ≤ a ∧ a + (n + 1) ≤ memSize) by omega]
      · simp only [h1, h2, if_false, ih]; omega

/-- The fault of a sequence of byte stores, in closed form: the first address decides about protection. -/
theorem checkWrites_eq (n : Nat) (hn : 0 < n) (a : Nat) : checkWrites a n =
    if a < programBase then some .writeProtected else if memSize < a + n then some .memoryOutOfRange else none := by
  induction n generalizing a with
  | zero => omega
  | succ n ih =>
    unfold checkWrites checkWrite
    have : programBase < memSize := by decide
    by_cases h1 : memSize ≤ a
    · simp [h1, show ¬ a < programBase by omega, show memSize < a + (n + 1) by omega]
    · by_cases h2 : a < programBase
      · simp [h1, h2]
      · by_cases hn0 : n = 0
        · subst hn0
          simp [h1, h2, checkWrites, show ¬ memSize < a + 1 by omega]
        · simp only [h1, h2, if_false]
          rw [ih (by omega)]
          simp [show ¬ a + 1 < programBase by omega, show a + 1 + n = a + (n + 1) by omega]

end Sys2Proof.Machine
end

