-- ==== Sys2Proof/Laws/Encoding.lean ====
section
/-! SUPPORT. The fields of a word and the words of the formats as numbers (spec/30_encoding.md R91, R92): each function once, so
that statements about encodings reduce to arithmetic. -/

namespace Sys2Proof

/-! ### The fields of a word as numbers -/

theorem fieldFamily_toNat (w : Word) : (fieldFamily w).toNat = w.toNat / 4096 := by
  have := w.isLt
  simp only [fieldFamily, BitVec.extractLsb'_toNat, Nat.shiftRight_eq_div_pow]; omega

theorem fieldX_val (w : Word) : (fieldX w).val = w.toNat / 256 % 16 := by
  show (w.extractLsb' 8 4).toNat = _
  simp only [BitVec.extractLsb'_toNat, Nat.shiftRight_eq_div_pow]

theorem fieldY_val (w : Word) : (fieldY w).val = w.toNat / 16 % 16 := by
  show (w.extractLsb' 4 4).toNat = _
  simp only [BitVec.extractLsb'_toNat, Nat.shiftRight_eq_div_pow]

theorem fieldN_toNat (w : Word) : (fieldN w).toNat = w.toNat % 16 := by
  simp only [fieldN, BitVec.extractLsb'_toNat, Nat.shiftRight_eq_div_pow]; omega

theorem fieldNN_toNat (w : Word) : (fieldNN w).toNat = w.toNat % 256 := by
  simp only [fieldNN, BitVec.extractLsb'_toNat, Nat.shiftRight_eq_div_pow]; omega

theorem fieldNNN_toNat (w : Word) : (fieldNNN w).toNat = w.toNat % 4096 := by
  simp only [fieldNNN, BitVec.extractLsb'_toNat, Nat.shiftRight_eq_div_pow]; omega

theorem highByte_toNat (w : Word) : (highByte w).toNat = w.toNat / 256 := by
  have := w.isLt
  simp only [highByte, BitVec.extractLsb'_toNat, Nat.shiftRight_eq_div_pow]; omega

theorem lowByte_toNat (w : Word) : (lowByte w).toNat = w.toNat % 256 := by
  simp only [lowByte, BitVec.extractLsb'_toNat, Nat.shiftRight_eq_div_pow]; omega

/-! ### The masks of R97 as numbers -/

/-- The mask 0xF000 keeps the family. -/
theorem and_family (w : Word) : (w &&& 0xF000#16).toNat = w.toNat / 4096 * 4096 := by
  have h : w &&& 0xF000#16 = (w >>> 12) <<< 12 := by
    apply BitVec.eq_of_getLsbD_eq; intro k hk; interval_cases k <;> simp
  have := w.isLt
  rw [h]; simp [Nat.shiftRight_eq_div_pow, Nat.shiftLeft_eq]; omega

/-- The mask 0xF00F keeps the family and the low nibble. -/
theorem and_familyLow4 (w : Word) : (w &&& 0xF00F#16).toNat = w.toNat / 4096 * 4096 + w.toNat % 16 := by
  have h : w &&& 0xF00F#16 = (w >>> 12) <<< 12 + (w <<< 12) >>> 12 := by
    rw [BitVec.add_eq_or_of_and_eq_zero]
    · apply BitVec.eq_of_getLsbD_eq; intro k hk; interval_cases k <;> simp
    · apply BitVec.eq_of_getLsbD_eq; intro k hk; interval_cases k <;> simp
  have := w.isLt
  rw [h]; simp [Nat.shiftRight_eq_div_pow, Nat.shiftLeft_eq]; omega

/-- The mask 0xF0FF keeps the family and the low byte. -/
theorem and_familyLow8 (w : Word) : (w &&& 0xF0FF#16).toNat = w.toNat / 4096 * 4096 + w.toNat % 256 := by
  have h : w &&& 0xF0FF#16 = (w >>> 12) <<< 12 + (w <<< 8) >>> 8 := by
    rw [BitVec.add_eq_or_of_and_eq_zero]
    · apply BitVec.eq_of_getLsbD_eq; intro k hk; interval_cases k <;> simp
    · apply BitVec.eq_of_getLsbD_eq; intro k hk; interval_cases k <;> simp
  have := w.isLt
  rw [h]; simp [Nat.shiftRight_eq_div_pow, Nat.shiftLeft_eq]; omega

/-! ### Concatenations as numbers -/

theorem append_toNat {m n : Nat} (a : BitVec m) (b : BitVec n) : (a ++ b).toNat = 2 ^ n * a.toNat + b.toNat := by
  rw [BitVec.toNat_append, ← Nat.shiftLeft_add_eq_or_of_lt b.isLt, Nat.shiftLeft_eq, Nat.mul_comm]

theorem regBits_toNat (x : RegIdx) : (regBits x).toNat = x.val := rfl

theorem fmtAddr_toNat (f : BitVec 4) (nnn : Addr12) : (fmtAddr f nnn).toNat = 4096 * f.toNat + nnn.toNat :=
  append_toNat f nnn

theorem fmtRegImm_toNat (f : BitVec 4) (x : RegIdx) (nn : Byte) :
    (fmtRegImm f x nn).toNat = 4096 * f.toNat + 256 * x.val + nn.toNat := by
  have h1 := append_toNat (f ++ regBits x) nn
  have h2 := append_toNat f (regBits x)
  rw [regBits_toNat] at h2
  exact h1.trans (by omega)

theorem fmtRegReg_toNat (f : BitVec 4) (x y : RegIdx) (low : BitVec 4) :
    (fmtRegReg f x y low).toNat = 4096 * f.toNat + 256 * x.val + 16 * y.val + low.toNat := by
  have h1 := append_toNat (f ++ regBits x ++ regBits y) low
  have h2 := append_toNat (f ++ regBits x) (regBits y)
  have h3 := append_toNat f (regBits x)
  rw [regBits_toNat] at h2 h3
  exact h1.trans (by omega)

theorem fmtReg_toNat (f : BitVec 4) (x : RegIdx) (ff : Byte) :
    (fmtReg f x ff).toNat = 4096 * f.toNat + 256 * x.val + ff.toNat := fmtRegImm_toNat f x ff

theorem wordOfBytes_toNat (hi lo : Byte) : (wordOfBytes hi lo).toNat = 256 * hi.toNat + lo.toNat := append_toNat hi lo

/-- A word is the big-endian word of its two bytes (R63). -/
theorem wordOfBytes_highByte_lowByte (w : Word) : wordOfBytes (highByte w) (lowByte w) = w := by
  apply BitVec.eq_of_toNat_eq
  rw [wordOfBytes_toNat, highByte_toNat, lowByte_toNat]; omega

/-! ### The fields of each format -/

section
variable (f : BitVec 4) (x y : RegIdx) (nn : Byte) (nnn : Addr12) (low : BitVec 4)

@[simp] theorem fieldFamily_fmtAddr : fieldFamily (fmtAddr f nnn) = f := by
  apply BitVec.eq_of_toNat_eq; rw [fieldFamily_toNat, fmtAddr_toNat]; omega

@[simp] theorem fieldNNN_fmtAddr : fieldNNN (fmtAddr f nnn) = nnn := by
  apply BitVec.eq_of_toNat_eq; rw [fieldNNN_toNat, fmtAddr_toNat]; omega

@[simp] theorem fieldFamily_fmtRegImm : fieldFamily (fmtRegImm f x nn) = f := by
  apply BitVec.eq_of_toNat_eq; rw [fieldFamily_toNat, fmtRegImm_toNat]; omega

@[simp] theorem fieldX_fmtRegImm : fieldX (fmtRegImm f x nn) = x := by
  apply Fin.ext; rw [fieldX_val, fmtRegImm_toNat]; omega

@[simp] theorem fieldNN_fmtRegImm : fieldNN (fmtRegImm f x nn) = nn := by
  apply BitVec.eq_of_toNat_eq; rw [fieldNN_toNat, fmtRegImm_toNat]; omega

@[simp] theorem fieldFamily_fmtReg : fieldFamily (fmtReg f x nn) = f := fieldFamily_fmtRegImm f x nn

@[simp] theorem fieldX_fmtReg : fieldX (fmtReg f x nn) = x := fieldX_fmtRegImm f x nn

@[simp] theorem fieldNN_fmtReg : fieldNN (fmtReg f x nn) = nn := fieldNN_fmtRegImm f x nn

@[simp] theorem fieldFamily_fmtRegReg : fieldFamily (fmtRegReg f x y low) = f := by
  apply BitVec.eq_of_toNat_eq; rw [fieldFamily_toNat, fmtRegReg_toNat]; omega

@[simp] theorem fieldX_fmtRegReg : fieldX (fmtRegReg f x y low) = x := by
  apply Fin.ext; rw [fieldX_val, fmtRegReg_toNat]; omega

@[simp] theorem fieldY_fmtRegReg : fieldY (fmtRegReg f x y low) = y := by
  apply Fin.ext; rw [fieldY_val, fmtRegReg_toNat]; omega

@[simp] theorem fieldN_fmtRegReg : fieldN (fmtRegReg f x y low) = low := by
  apply BitVec.eq_of_toNat_eq; rw [fieldN_toNat, fmtRegReg_toNat]; omega

end

end Sys2Proof
end

