-- ==== Sys2Proof/Laws/Operands.lean ====
section
/-! SUPPORT. The laws of the operand forms, the flags, the timers and the key search: one lemma that says all an operation
answers, so that proofs about instructions need not unfold it. -/

namespace Sys2Proof.Machine

/-! ### Operands -/

/-- A register value up to 0x0F names the key or glyph of its number (R221, R242). -/
theorem indexOperand_some {b : Byte} {k : Fin 16} (h : b.toNat = k.val) : indexOperand b = some k := by
  unfold indexOperand; rw [dif_pos (by omega)]; simp [h]

/-- A register value above 0x0F names none (R221, R242). -/
theorem indexOperand_none {b : Byte} (h : 0x0F < b.toNat) : indexOperand b = none := by
  unfold indexOperand; rw [dif_neg (by omega)]

theorem zextAddr_toNat (nnn : Addr12) : (zextAddr nnn).toNat = nnn.toNat := by simp [zextAddr]; omega

theorem zextByte_toNat (b : Byte) : (zextByte b).toNat = b.toNat := by simp [zextByte]; omega

theorem addrHighNibble_val (nnn : Addr12) : (addrHighNibble nnn).val = nnn.toNat / 256 := by
  have := nnn.isLt
  show (nnn.extractLsb' 8 4).toNat = _
  simp only [BitVec.extractLsb'_toNat, Nat.shiftRight_eq_div_pow]; omega

theorem shiftOperand_vy {s : State} (h : s.cfg.shiftSource = .vy) (x y : RegIdx) : shiftOperand s x y = getV s y := by
  simp [shiftOperand, h]

theorem shiftOperand_vx {s : State} (h : s.cfg.shiftSource = .vx) (x y : RegIdx) : shiftOperand s x y = getV s x := by
  simp [shiftOperand, h]

theorem jumpOffset_v0 {s : State} (h : s.cfg.jumpOffsetReg = .v0) (nnn : Addr12) : jumpOffset s nnn = getV s 0 := by
  simp [jumpOffset, h]

theorem jumpOffset_vx {s : State} (h : s.cfg.jumpOffsetReg = .vx) (nnn : Addr12) :
    jumpOffset s nnn = getV s (addrHighNibble nnn) := by simp [jumpOffset, h]

/-! ### The register range of Fx55 and Fx65 -/

theorem mem_regsUpTo {x k : RegIdx} : k ∈ regsUpTo x ↔ k.val ≤ x.val := by simp [regsUpTo]

theorem regsUpTo_length (x : RegIdx) : (regsUpTo x).length = x.val + 1 := by revert x; decide

/-- The `k`-th register of the range is `V[k]`. -/
theorem regsUpTo_getElem (x : RegIdx) : ∀ k (h : k < (regsUpTo x).length), ((regsUpTo x)[k]).val = k := by
  revert x; decide

/-- The registers of the list hold the bytes at their offsets, every other register what it held (R245). -/
theorem getV_loadRegs (base : Nat) (ks : List RegIdx) : ∀ (s : State) (k : RegIdx),
    getV (loadRegs s base ks) k = if k ∈ ks then readByte s (base + k.val) else getV s k := by
  induction ks with
  | nil => intro s k; simp [loadRegs]
  | cons j ks ih =>
    intro s k
    rw [loadRegs, ih, readByte_setV, getV_setV]
    by_cases h : k ∈ ks <;> by_cases h2 : k = j <;> simp [h, h2]

/-- `i_after` under NONE (R246). -/
theorem indexAfter_none {s : State} (x : RegIdx) (h : s.cfg.ldstIncrement = .none) : indexAfter s x = s.i := by
  simp [indexAfter, h]

/-- `i_after` under X_PLUS_1, which does not wrap after a completed transfer (R246). -/
theorem indexAfter_xPlus1 {s : State} (x : RegIdx) (h : s.cfg.ldstIncrement = .xPlus1) (hi : s.i.toNat + x.val ≤ 0xFFF) :
    (indexAfter s x).toNat = s.i.toNat + x.val + 1 := by
  simp [indexAfter, h]; omega

/-- `i_after` under X, which does not wrap after a completed transfer (R246). -/
theorem indexAfter_x {s : State} (x : RegIdx) (h : s.cfg.ldstIncrement = .x) (hi : s.i.toNat + x.val ≤ 0xFFF) :
    (indexAfter s x).toNat = s.i.toNat + x.val := by
  simp [indexAfter, h]; omega

/-- The range check of reads, in closed form (R66). -/
theorem checkReads_eq {a n : Nat} (hn : 0 < n) :
    checkReads a n = if memSize < a + n then some .memoryOutOfRange else none := by
  unfold checkReads
  by_cases h : memSize < a + n
  · simp [h, show memSize ≤ a + n - 1 by omega, hn]
  · simp [h, show ¬ memSize ≤ a + n - 1 by omega]

theorem checkReads_zero (a : Nat) : checkReads a 0 = none := by simp [checkReads]

/-! ### Flags -/

theorem flagByte_toNat (c : Bool) : (flagByte c).toNat = if c then 1 else 0 := by cases c <;> rfl

/-- The bit out of a right shift is the parity (R204). -/
theorem shiftRightFlag_toNat (b : Byte) : (shiftRightFlag b).toNat = b.toNat % 2 := by
  have := b.isLt
  rw [shiftRightFlag, flagByte_toNat]
  cases h : b.getLsbD 0 <;> simp only [BitVec.getLsbD, Nat.testBit_eq_decide_div_mod_eq] at h <;> simp at h ⊢ <;> omega

/-- The bit out of a left shift is the top bit (R206). -/
theorem shiftLeftFlag_toNat (b : Byte) : (shiftLeftFlag b).toNat = b.toNat / 128 := by
  have := b.isLt
  rw [shiftLeftFlag, flagByte_toNat]
  cases h : b.getLsbD 7 <;> simp only [BitVec.getLsbD, Nat.testBit_eq_decide_div_mod_eq] at h <;> simp at h ⊢ <;> omega

/-! ### Timers and keys -/

/-- One lower, floor at zero (R125). -/
theorem decrementTimer_toNat (t : Byte) : (decrementTimer t).toNat = t.toNat - 1 := by
  unfold decrementTimer
  split
  · next h => simp [h]
  · next h =>
    have : t.toNat ≠ 0 := fun h0 => h (BitVec.eq_of_toNat_eq h0)
    have := t.isLt
    simp [BitVec.toNat_sub]; omega

/-- No key down: the search finds none (R127). -/
theorem lowestKeyDown_none {s : State} (h : ∀ k : KeyIdx, s.keys[k.val] = false) : lowestKeyDown s = none := by
  simp [lowestKeyDown, List.find?_eq_none, h]

/-- The search finds the smallest key that is down (R127). -/
theorem lowestKeyDown_some {s : State} (k : KeyIdx) (hk : s.keys[k.val] = true)
    (h : ∀ j : KeyIdx, j < k → s.keys[j.val] = false) : lowestKeyDown s = some k := by
  unfold lowestKeyDown
  rw [List.find?_eq_some_iff_getElem]
  refine ⟨hk, k.val, by simp, by simp, fun j hj => ?_⟩
  simp [h ⟨j, by omega⟩ hj]

/-! ### Fault entry -/

/-- The entry of a fault changes the fault register and nothing else (R310). -/
theorem takeFault_enters (f : CoreFault) (w : Word) (s : State) : EntersFault (faultCode f) w s (takeFault f w s) := by
  refine ⟨rfl, fun e he => ?_⟩
  cases e <;> simp [Elem.same, Elem.ofFault] at he ⊢

/-! ### Drawing (R261) -/

/-- Under CLIP a pixel past an edge falls on no cell; otherwise, and always under WRAP, on its coordinates modulo the display's
size. -/
theorem drawCell_eq_some {edge : DrawEdge} {px py : Nat} {x : Fin 64} {y : Fin 32} :
    drawCell edge px py = some (x, y) ↔
      match edge with
      | .clip => px = x.val ∧ py = y.val
      | .wrap => px % 64 = x.val ∧ py % 32 = y.val := by
  have hx := x.isLt
  have hy := y.isLt
  cases edge
  · by_cases h : 63 < px ∨ 31 < py
    · simp [drawCell, h]; omega
    · simp [drawCell, h, Fin.ext_iff]; omega
  · simp [drawCell, Fin.ext_iff]

/-- One set sprite bit inverts the cell it falls on, and no other. -/
theorem getPixel_drawPixel (edge : DrawEdge) (px py : Nat) (acc : Display × Bool) (x : Fin 64) (y : Fin 32) :
    getPixel (drawPixel edge px py acc).1 x y =
      if drawCell edge px py = some (x, y) then !getPixel acc.1 x y else getPixel acc.1 x y := by
  unfold drawPixel
  cases h : drawCell edge px py with
  | none => simp
  | some c =>
    obtain ⟨cx, cy⟩ := c
    simp only [getPixel_setPixel, Option.some.injEq, Prod.mk.injEq]
    by_cases h' : x = cx ∧ y = cy
    · obtain ⟨rfl, rfl⟩ := h'; simp
    · simp [h', show ¬ (cx = x ∧ cy = y) from fun e => h' ⟨e.1.symm, e.2.symm⟩]

/-- One set sprite bit hits when the cell it falls on was 1. -/
theorem hit_drawPixel (edge : DrawEdge) (px py : Nat) (acc : Display × Bool) :
    (drawPixel edge px py acc).2 = true ↔
      acc.2 = true ∨ ∃ x y, drawCell edge px py = some (x, y) ∧ getPixel acc.1 x y = true := by
  unfold drawPixel
  cases h : drawCell edge px py with
  | none => simp
  | some c => obtain ⟨cx, cy⟩ := c; simp

end Sys2Proof.Machine
end

