-- ==== Sys2Proof/Laws/PerInstr.lean ====
section
/-! SUPPORT. Statements about every instruction as syntax, one lemma per constructor. -/

namespace Sys2Proof.Laws

/-- The word of the instruction is selected by a row of the opcode map that carries the instruction's profile (R95, R97). -/
def EncodingRow.Statement (i : Instr) : Prop :=
  ∃ r ∈ opcodeTable, encode i &&& r.mask = r.value ∧ r.profile = i.profile

/-- A word matches a row when the masked number is the row's. -/
theorem selected {mask value : Word} {p : IsaProfile} (hr : (⟨value, mask, p⟩ : OpcodeRow) ∈ opcodeTable) {i : Instr}
    (hw : (encode i &&& mask).toNat = value.toNat) (hp : p = i.profile) : EncodingRow.Statement i :=
  ⟨_, hr, BitVec.eq_of_toNat_eq hw, hp⟩

theorem EncodingRow.cls : EncodingRow.Statement (.cls) :=
  selected (value := 0x00E0) (mask := 0xFFFF) (p := .base) (by decide) (by decide) rfl

theorem EncodingRow.ret : EncodingRow.Statement (.ret) :=
  selected (value := 0x00EE) (mask := 0xFFFF) (p := .base) (by decide) (by decide) rfl

theorem EncodingRow.jp (nnn : Addr12) : EncodingRow.Statement (.jp nnn) :=
  selected (value := 0x1000) (mask := 0xF000) (p := .base) (by decide) ((and_family _).trans (by simp [encode, fmtAddr_toNat]; try omega)) rfl

theorem EncodingRow.call (nnn : Addr12) : EncodingRow.Statement (.call nnn) :=
  selected (value := 0x2000) (mask := 0xF000) (p := .base) (by decide) ((and_family _).trans (by simp [encode, fmtAddr_toNat]; try omega)) rfl

theorem EncodingRow.seImm (x : RegIdx) (nn : Byte) : EncodingRow.Statement (.seImm x nn) :=
  selected (value := 0x3000) (mask := 0xF000) (p := .base) (by decide) ((and_family _).trans (by simp [encode, fmtRegImm_toNat]; try omega)) rfl

theorem EncodingRow.sneImm (x : RegIdx) (nn : Byte) : EncodingRow.Statement (.sneImm x nn) :=
  selected (value := 0x4000) (mask := 0xF000) (p := .base) (by decide) ((and_family _).trans (by simp [encode, fmtRegImm_toNat]; try omega)) rfl

theorem EncodingRow.seReg (x : RegIdx) (y : RegIdx) : EncodingRow.Statement (.seReg x y) :=
  selected (value := 0x5000) (mask := 0xF00F) (p := .base) (by decide) ((and_familyLow4 _).trans (by simp [encode, fmtRegReg_toNat]; try omega)) rfl

theorem EncodingRow.ldImm (x : RegIdx) (nn : Byte) : EncodingRow.Statement (.ldImm x nn) :=
  selected (value := 0x6000) (mask := 0xF000) (p := .base) (by decide) ((and_family _).trans (by simp [encode, fmtRegImm_toNat]; try omega)) rfl

theorem EncodingRow.addImm (x : RegIdx) (nn : Byte) : EncodingRow.Statement (.addImm x nn) :=
  selected (value := 0x7000) (mask := 0xF000) (p := .base) (by decide) ((and_family _).trans (by simp [encode, fmtRegImm_toNat]; try omega)) rfl

theorem EncodingRow.ldReg (x : RegIdx) (y : RegIdx) : EncodingRow.Statement (.ldReg x y) :=
  selected (value := 0x8000) (mask := 0xF00F) (p := .base) (by decide) ((and_familyLow4 _).trans (by simp [encode, fmtRegReg_toNat]; try omega)) rfl

theorem EncodingRow.orReg (x : RegIdx) (y : RegIdx) : EncodingRow.Statement (.orReg x y) :=
  selected (value := 0x8001) (mask := 0xF00F) (p := .base) (by decide) ((and_familyLow4 _).trans (by simp [encode, fmtRegReg_toNat]; try omega)) rfl

theorem EncodingRow.andReg (x : RegIdx) (y : RegIdx) : EncodingRow.Statement (.andReg x y) :=
  selected (value := 0x8002) (mask := 0xF00F) (p := .base) (by decide) ((and_familyLow4 _).trans (by simp [encode, fmtRegReg_toNat]; try omega)) rfl

theorem EncodingRow.xorReg (x : RegIdx) (y : RegIdx) : EncodingRow.Statement (.xorReg x y) :=
  selected (value := 0x8003) (mask := 0xF00F) (p := .full) (by decide) ((and_familyLow4 _).trans (by simp [encode, fmtRegReg_toNat]; try omega)) rfl

theorem EncodingRow.addReg (x : RegIdx) (y : RegIdx) : EncodingRow.Statement (.addReg x y) :=
  selected (value := 0x8004) (mask := 0xF00F) (p := .full) (by decide) ((and_familyLow4 _).trans (by simp [encode, fmtRegReg_toNat]; try omega)) rfl

theorem EncodingRow.subReg (x : RegIdx) (y : RegIdx) : EncodingRow.Statement (.subReg x y) :=
  selected (value := 0x8005) (mask := 0xF00F) (p := .full) (by decide) ((and_familyLow4 _).trans (by simp [encode, fmtRegReg_toNat]; try omega)) rfl

theorem EncodingRow.shr (x : RegIdx) (y : RegIdx) : EncodingRow.Statement (.shr x y) :=
  selected (value := 0x8006) (mask := 0xF00F) (p := .full) (by decide) ((and_familyLow4 _).trans (by simp [encode, fmtRegReg_toNat]; try omega)) rfl

theorem EncodingRow.subn (x : RegIdx) (y : RegIdx) : EncodingRow.Statement (.subn x y) :=
  selected (value := 0x8007) (mask := 0xF00F) (p := .full) (by decide) ((and_familyLow4 _).trans (by simp [encode, fmtRegReg_toNat]; try omega)) rfl

theorem EncodingRow.shl (x : RegIdx) (y : RegIdx) : EncodingRow.Statement (.shl x y) :=
  selected (value := 0x800E) (mask := 0xF00F) (p := .full) (by decide) ((and_familyLow4 _).trans (by simp [encode, fmtRegReg_toNat]; try omega)) rfl

theorem EncodingRow.sneReg (x : RegIdx) (y : RegIdx) : EncodingRow.Statement (.sneReg x y) :=
  selected (value := 0x9000) (mask := 0xF00F) (p := .full) (by decide) ((and_familyLow4 _).trans (by simp [encode, fmtRegReg_toNat]; try omega)) rfl

theorem EncodingRow.ldI (nnn : Addr12) : EncodingRow.Statement (.ldI nnn) :=
  selected (value := 0xA000) (mask := 0xF000) (p := .full) (by decide) ((and_family _).trans (by simp [encode, fmtAddr_toNat]; try omega)) rfl

theorem EncodingRow.jpV0 (nnn : Addr12) : EncodingRow.Statement (.jpV0 nnn) :=
  selected (value := 0xB000) (mask := 0xF000) (p := .full) (by decide) ((and_family _).trans (by simp [encode, fmtAddr_toNat]; try omega)) rfl

theorem EncodingRow.rnd (x : RegIdx) (nn : Byte) : EncodingRow.Statement (.rnd x nn) :=
  selected (value := 0xC000) (mask := 0xF000) (p := .full) (by decide) ((and_family _).trans (by simp [encode, fmtRegImm_toNat]; try omega)) rfl

theorem EncodingRow.drw (x : RegIdx) (y : RegIdx) (n : Fin 16) : EncodingRow.Statement (.drw x y n) :=
  selected (value := 0xD000) (mask := 0xF000) (p := .full) (by decide) ((and_family _).trans (by simp [encode, fmtRegReg_toNat]; try omega)) rfl

theorem EncodingRow.skp (x : RegIdx) : EncodingRow.Statement (.skp x) :=
  selected (value := 0xE09E) (mask := 0xF0FF) (p := .full) (by decide) ((and_familyLow8 _).trans (by simp [encode, fmtReg_toNat]; try omega)) rfl

theorem EncodingRow.sknp (x : RegIdx) : EncodingRow.Statement (.sknp x) :=
  selected (value := 0xE0A1) (mask := 0xF0FF) (p := .full) (by decide) ((and_familyLow8 _).trans (by simp [encode, fmtReg_toNat]; try omega)) rfl

theorem EncodingRow.ldVxDT (x : RegIdx) : EncodingRow.Statement (.ldVxDT x) :=
  selected (value := 0xF007) (mask := 0xF0FF) (p := .full) (by decide) ((and_familyLow8 _).trans (by simp [encode, fmtReg_toNat]; try omega)) rfl

theorem EncodingRow.ldVxK (x : RegIdx) : EncodingRow.Statement (.ldVxK x) :=
  selected (value := 0xF00A) (mask := 0xF0FF) (p := .full) (by decide) ((and_familyLow8 _).trans (by simp [encode, fmtReg_toNat]; try omega)) rfl

theorem EncodingRow.ldDTVx (x : RegIdx) : EncodingRow.Statement (.ldDTVx x) :=
  selected (value := 0xF015) (mask := 0xF0FF) (p := .full) (by decide) ((and_familyLow8 _).trans (by simp [encode, fmtReg_toNat]; try omega)) rfl

theorem EncodingRow.ldSTVx (x : RegIdx) : EncodingRow.Statement (.ldSTVx x) :=
  selected (value := 0xF018) (mask := 0xF0FF) (p := .full) (by decide) ((and_familyLow8 _).trans (by simp [encode, fmtReg_toNat]; try omega)) rfl

theorem EncodingRow.addIVx (x : RegIdx) : EncodingRow.Statement (.addIVx x) :=
  selected (value := 0xF01E) (mask := 0xF0FF) (p := .full) (by decide) ((and_familyLow8 _).trans (by simp [encode, fmtReg_toNat]; try omega)) rfl

theorem EncodingRow.ldFVx (x : RegIdx) : EncodingRow.Statement (.ldFVx x) :=
  selected (value := 0xF029) (mask := 0xF0FF) (p := .full) (by decide) ((and_familyLow8 _).trans (by simp [encode, fmtReg_toNat]; try omega)) rfl

theorem EncodingRow.ldBVx (x : RegIdx) : EncodingRow.Statement (.ldBVx x) :=
  selected (value := 0xF033) (mask := 0xF0FF) (p := .full) (by decide) ((and_familyLow8 _).trans (by simp [encode, fmtReg_toNat]; try omega)) rfl

theorem EncodingRow.ldMemVx (x : RegIdx) : EncodingRow.Statement (.ldMemVx x) :=
  selected (value := 0xF055) (mask := 0xF0FF) (p := .full) (by decide) ((and_familyLow8 _).trans (by simp [encode, fmtReg_toNat]; try omega)) rfl

theorem EncodingRow.ldVxMem (x : RegIdx) : EncodingRow.Statement (.ldVxMem x) :=
  selected (value := 0xF065) (mask := 0xF0FF) (p := .full) (by decide) ((and_familyLow8 _).trans (by simp [encode, fmtReg_toNat]; try omega)) rfl

end Sys2Proof.Laws
end

