-- ==== Sys2Proof/Laws/Step.lean ====
section
/-! SUPPORT. What one step can do, said once: the inversion of `step`, what every instruction leaves alone, the key-wait poll,
and what the decoder answers. -/

namespace Sys2Proof.Machine

/-! ### Decoding -/

/-- An admitted instruction is the row the word matches, and the profile admits it. -/
theorem decode_eq_instr {p : IsaProfile} {w : Word} {i : Instr} (h : decode p w = .instr i) :
    decodeRow w = some i ∧ i.wellFormed p = true := by
  unfold decode at h; split at h
  · split at h
    · cases h; exact ⟨by assumption, by assumption⟩
    · cases h
  · cases h

/-- `Illegal(op)` carries the word itself. -/
theorem decode_eq_illegal {p : IsaProfile} {w w' : Word} (h : decode p w = .illegal w') : w' = w := by
  unfold decode at h; split at h
  · split at h
    · cases h
    · cases h; rfl
  · cases h; rfl

/-- A word is illegal exactly when no row that the profile admits matches it. -/
theorem decode_illegal_iff {p : IsaProfile} {w : Word} :
    decode p w = .illegal w ↔ ¬ ∃ i, decodeRow w = some i ∧ i.wellFormed p = true := by
  unfold decode
  cases decodeRow w with
  | none => simp
  | some i => cases h : i.wellFormed p <;> simp [h]

/-! ### Fetch -/

/-- A fetch at or below 0xFFE reads the word there. -/
theorem fetch_some {s : State} (h : s.pc.toNat ≤ 0xFFE) : fetch s = some (wordAt s s.pc.toNat) := by
  simp [fetch, memSize]; omega

/-- A fetch at or above 0xFFF reads nothing. -/
theorem fetch_none {s : State} (h : 0xFFF ≤ s.pc.toNat) : fetch s = none := by
  simp [fetch, memSize]; omega

/-! ### The key-wait poll -/

/-- The poll touches the target register, the wait and `pc`, and nothing else. -/
theorem keyPoll_frame (s : State) :
    (keyPoll s).dt = s.dt ∧ (keyPoll s).st = s.st ∧ (keyPoll s).cfg = s.cfg ∧ (keyPoll s).keys = s.keys ∧
    (keyPoll s).redrawPending = s.redrawPending ∧ (keyPoll s).fault = s.fault ∧ (keyPoll s).mem = s.mem ∧
    (keyPoll s).illegal = s.illegal ∧ (keyPoll s).i = s.i ∧ (keyPoll s).sp = s.sp ∧ (keyPoll s).stack = s.stack ∧
    (keyPoll s).disp = s.disp ∧ (keyPoll s).draws = s.draws := by
  unfold keyPoll; split <;> simp

/-! ### What every instruction leaves alone -/

/-- No instruction changes the configuration, a key latch or the illegal-opcode report; only Fx15 and Fx18 write a timer; none
clears `redraw_pending`. -/
theorem exec_frame {i : Instr} {s t : State} (h : exec i s = .next t) :
    t.cfg = s.cfg ∧ t.keys = s.keys ∧ t.illegal = s.illegal ∧
    ((∀ x, i ≠ .ldDTVx x) → t.dt = s.dt) ∧ ((∀ x, i ≠ .ldSTVx x) → t.st = s.st) ∧
    (s.redrawPending = true → t.redrawPending = true) := by
  cases i with
  | ret =>
    simp only [exec, execRet, raise] at h
    split at h
    · cases h; simp
    split at h <;> cases h
    simp
  | call n =>
    simp only [exec, execCall, raise] at h
    split at h
    · cases h; simp
    split at h <;> cases h
    simp
  | skp x => simp only [exec, execSkp, raise] at h; split at h <;> cases h <;> simp
  | sknp x => simp only [exec, execSknp, raise] at h; split at h <;> cases h <;> simp
  | ldFVx x => simp only [exec, execLdFVx, raise] at h; split at h <;> cases h <;> simp
  | ldBVx x => simp only [exec, execLdBVx, raise] at h; split at h <;> cases h <;> simp
  | ldMemVx x => simp only [exec, execLdMemVx, raise] at h; split at h <;> cases h <;> simp
  | ldVxMem x => simp only [exec, execLdVxMem, raise] at h; split at h <;> cases h <;> simp
  | drw x y n => simp only [exec, execDrw, raise] at h; split at h <;> cases h <;> simp
  | _ => cases h; simp

/-! ### The inversion of a step -/

/-- Everything a tick that answers a next state can have been: a halted tick, a key-wait poll, a fetch out of range, an illegal
word under either policy, or one executed instruction; the timers are decremented after each. -/
theorem step_cases {s t : State} (h : step s = .next t) :
    (s.fault.code ≠ 0 ∧ t = decrementTimers s) ∨
    (s.fault.code = 0 ∧ s.blockingInput = true ∧ t = decrementTimers (keyPoll s)) ∨
    (s.fault.code = 0 ∧ s.blockingInput = false ∧ 0xFFF ≤ s.pc.toNat ∧
      t = decrementTimers (takeFault .fetchOutOfRange 0 s)) ∨
    (s.fault.code = 0 ∧ s.blockingInput = false ∧ s.pc.toNat ≤ 0xFFE ∧
      decode s.cfg.profile (wordAt s s.pc.toNat) = .illegal (wordAt s s.pc.toNat) ∧
      ((s.cfg.illegalPolicy = .halt ∧ t = decrementTimers (takeFault .illegalInstruction (wordAt s s.pc.toNat) s)) ∨
        (s.cfg.illegalPolicy = .nop ∧ t = decrementTimers (reportIllegal (advance s) (wordAt s s.pc.toNat) s.pc)))) ∨
    (∃ i t', Executes s i ∧ exec i s = .next t' ∧ t = decrementTimers t') := by
  by_cases hf : s.fault.code = 0
  · refine Or.inr ?_
    cases hb : s.blockingInput with
    | true =>
      simp [step, tick, halted, hf, coreStep, hb, thenTimers] at h
      exact Or.inl ⟨hf, rfl, h.symm⟩
    | false =>
      refine Or.inr ?_
      by_cases hpc : 0xFFF ≤ s.pc.toNat
      · simp [step, tick, halted, hf, coreStep, hb, thenTimers, fetchExecute, fetch_none hpc, raise] at h
        exact Or.inl ⟨hf, rfl, hpc, h.symm⟩
      · have hfe := fetch_some (s := s) (by omega)
        refine Or.inr ?_
        cases hd : decode s.cfg.profile (wordAt s s.pc.toNat) with
        | illegal w =>
          obtain rfl := decode_eq_illegal hd
          refine Or.inl ⟨hf, rfl, by omega, rfl, ?_⟩
          cases hp : s.cfg.illegalPolicy <;>
            simp [step, tick, halted, hf, coreStep, hb, thenTimers, fetchExecute, hfe, hd, execIllegal, hp, raise] at h <;>
            simp [h]
        | instr i =>
          cases he : exec i s <;>
            simp [step, tick, halted, hf, coreStep, hb, thenTimers, fetchExecute, hfe, hd, he] at h
          exact Or.inr ⟨i, _, ⟨hf, hb, by omega, hd⟩, he, h.symm⟩
  · refine Or.inl ⟨hf, ?_⟩
    rw [step, tick, show halted s = true by simpa [halted] using hf] at h
    cases h; rfl

end Sys2Proof.Machine
end

