-- ==== Sys2Proof/Tests/Slice0.lean ====
section
/-! SUPPORT. Tests of one step each, with the expected values of spec/95_test_vectors.md (its vector numbers S<n>, V<n> stand in
the comments) or worked out by hand from the rule named; the WellFormed smoke test; and, for every statement that has hypotheses,
a concrete state and operands that meet them. -/

namespace Sys2Proof.Machine.Tests

/-! ### Helpers -/

/-- One tick with the word `w` at `pc`. -/
def run (w : Nat) (s : State) : Result := step (s.withFetchWord 16 w)

/-- The result is a next state with property `p`. -/
def gives (r : Result) (p : State → Bool) : Bool :=
  match r with
  | .next t => p t
  | _ => false

/-- The result is the entry of fault `code` for the word `w` at address `a`. -/
def faults (r : Result) (code : BitVec 4) (w a : Word) : Bool :=
  gives r (fun t => t.fault == { code := code, opcode := w, pc := a } && t.pc == a)

/-- The state at construction with registers set. -/
def regs (l : List (RegIdx × Byte)) : State := l.foldl (fun s c => setV s c.1 c.2) State.reset

/-- The state at construction with `sp` live entries, each 0x345. -/
def calls (sp : BitVec 5) : State := { State.reset with sp := sp, stack := Vector.replicate 16 0x345 }

/-- A configuration applied to a state. -/
def under (f : Config → Config) (s : State) : State := { s with cfg := f s.cfg }

/-- The FULL profile. -/
def fullProfile (c : Config) : Config := { c with profile := .full }

/-- The cells of the first list are 1 and those of the second 0. -/
def shows (t : State) (on off : List (Fin 64 × Fin 32)) : Bool :=
  on.all (fun c => getPixel t.disp c.1 c.2) && off.all (fun c => !getPixel t.disp c.1 c.2)

/-- A state with `I` set. -/
def withI (a : Word) (s : State) : State := setI s a

/-! ### Well-formed instructions: a FULL row is none under BASE (R3, R97) -/

theorem test_wellFormed_base_admits_base_row : (Instr.andReg 1 2).wellFormed .base = true := by decide
theorem test_wellFormed_base_refuses_full_alu : (Instr.xorReg 1 2).wellFormed .base = false := by decide
theorem test_wellFormed_base_refuses_full_control : (Instr.jpV0 0x300).wellFormed .base = false := by decide
theorem test_wellFormed_base_refuses_full_memory : (Instr.ldVxMem 1).wellFormed .base = false := by decide
theorem test_wellFormed_base_refuses_full_display : (Instr.drw 1 2 5).wellFormed .base = false := by decide
theorem test_wellFormed_full_admits_full_row : (Instr.drw 1 2 5).wellFormed .full = true := by decide

/-! ### Decoding: one word of every constructor written out from the patterns of R97 -/

theorem test_decode_base_rows :
    decode .base 0b0000000011100000#16 = .instr .cls ∧
    decode .base 0b0000000011101110#16 = .instr .ret ∧
    decode .base 0b0001101010111100#16 = .instr (.jp 0xABC) ∧
    decode .base 0b0010011010010011#16 = .instr (.call 0x693) ∧
    decode .base 0b0011101101010100#16 = .instr (.seImm 0xB 0x54) ∧
    decode .base 0b0100000101010100#16 = .instr (.sneImm 1 0x54) ∧
    decode .base 0b0101001001110000#16 = .instr (.seReg 2 7) ∧
    decode .base 0b0110101001111111#16 = .instr (.ldImm 0xA 0x7F) ∧
    decode .base 0b0111010011111111#16 = .instr (.addImm 4 0xFF) ∧
    decode .base 0b1000000100100000#16 = .instr (.ldReg 1 2) ∧
    decode .base 0b1000101011000001#16 = .instr (.orReg 0xA 0xC) ∧
    decode .base 0b1000101011000010#16 = .instr (.andReg 0xA 0xC) := by decide

theorem test_decode_full_alu_rows :
    decode .full 0b1000000100100011#16 = .instr (.xorReg 1 2) ∧
    decode .full 0b1000000100100100#16 = .instr (.addReg 1 2) ∧
    decode .full 0b1000000100100101#16 = .instr (.subReg 1 2) ∧
    decode .full 0b1000000100100110#16 = .instr (.shr 1 2) ∧
    decode .full 0b1000000100100111#16 = .instr (.subn 1 2) ∧
    decode .full 0b1000000100101110#16 = .instr (.shl 1 2) ∧
    decode .full 0b1001000000010000#16 = .instr (.sneReg 0 1) := by decide

theorem test_decode_full_address_rows :
    decode .full 0b1010000100100011#16 = .instr (.ldI 0x123) ∧
    decode .full 0b1011001100000000#16 = .instr (.jpV0 0x300) ∧
    decode .full 0b1100011100001111#16 = .instr (.rnd 7 0x0F) ∧
    decode .full 0b1101000100100101#16 = .instr (.drw 1 2 5) ∧
    decode .full 0b1110010110011110#16 = .instr (.skp 5) ∧
    decode .full 0b1110010110100001#16 = .instr (.sknp 5) := by decide

theorem test_decode_full_f_rows :
    decode .full 0b1111001100000111#16 = .instr (.ldVxDT 3) ∧
    decode .full 0b1111010100001010#16 = .instr (.ldVxK 5) ∧
    decode .full 0b1111001100010101#16 = .instr (.ldDTVx 3) ∧
    decode .full 0b1111001100011000#16 = .instr (.ldSTVx 3) ∧
    decode .full 0b1111001100011110#16 = .instr (.addIVx 3) ∧
    decode .full 0b1111001100101001#16 = .instr (.ldFVx 3) ∧
    decode .full 0b1111001100110011#16 = .instr (.ldBVx 3) ∧
    decode .full 0b1111001101010101#16 = .instr (.ldMemVx 3) ∧
    decode .full 0b1111001101100101#16 = .instr (.ldVxMem 3) := by decide

/-- V2, V3, V4, V7. -/
theorem test_decode_illegal_base :
    decode .base 0x00E1#16 = .illegal 0x00E1#16 ∧
    decode .base 0x01E0#16 = .illegal 0x01E0#16 ∧
    decode .base 0x0123#16 = .illegal 0x0123#16 ∧
    decode .base 0x0000#16 = .illegal 0x0000#16 ∧
    decode .base 0x5341#16 = .illegal 0x5341#16 ∧
    decode .base 0x8123#16 = .illegal 0x8123#16 ∧
    decode .base 0xA123#16 = .illegal 0xA123#16 ∧
    decode .base 0xD125#16 = .illegal 0xD125#16 ∧
    decode .base 0xF165#16 = .illegal 0xF165#16 := by decide

/-- V2, V3, V6. -/
theorem test_decode_illegal_full :
    decode .full 0x00E1#16 = .illegal 0x00E1#16 ∧
    decode .full 0x0000#16 = .illegal 0x0000#16 ∧
    decode .full 0x5341#16 = .illegal 0x5341#16 ∧
    decode .full 0x8128#16 = .illegal 0x8128#16 ∧
    decode .full 0x812F#16 = .illegal 0x812F#16 ∧
    decode .full 0x9121#16 = .illegal 0x9121#16 ∧
    decode .full 0xE19F#16 = .illegal 0xE19F#16 ∧
    decode .full 0xF100#16 = .illegal 0xF100#16 ∧
    decode .full 0xFFFF#16 = .illegal 0xFFFF#16 := by decide

/-- R63, R90: the high byte comes first, and two bytes are taken. -/
theorem test_decode_bytes :
    decodeBytes .base [0x12, 0x04, 0x99] = .ok (.jp 0x204, [0x99]) ∧ decodeBytes .base [0x12] = .error .truncated := ⟨rfl, rfl⟩

theorem test_decode_table_word :
    decodeTableWord 16 0x26A0 = some (.call 0x6A0) ∧ decodeTableWord 16 0xF565 = some (.ldVxMem 5) ∧
    decodeTableWord 16 0x5341 = none := by decide

/-! ### BASE instructions -/

/-- S5, V31. -/
theorem test_cls_clears_every_cell :
    gives (run 0x00E0 { State.reset with disp := setPixel (setPixel blankDisplay 3 4 true) 63 31 true })
      (fun t => shows t [] [(3, 4), (63, 31), (0, 0)] && t.redrawPending && t.pc == 0x202) = true := by decide
/-- V43. -/
theorem test_ret_pops_and_keeps_entry :
    gives (run 0x00EE (calls 1)) (fun t => t.sp == 0 && t.pc == 0x345 && t.stack[0] == 0x345) = true := by decide
/-- S16, V44. -/
theorem test_ret_underflow : faults (run 0x00EE State.reset) 3 0x00EE 0x200 = true := by decide
/-- S7. -/
theorem test_jp : gives (run 0x1ABC State.reset) (fun t => t.pc == 0xABC) = true := by decide
/-- S8. -/
theorem test_call_pushes_next_address :
    gives (run 0x2693 State.reset) (fun t => t.sp == 1 && t.stack[0] == 0x202 && t.pc == 0x693) = true := by decide
/-- S17. -/
theorem test_call_overflow : faults (run 0x2400 (calls 16)) 2 0x2400 0x200 = true := by decide
/-- S9. -/
theorem test_se_imm_skips : gives (run 0x3B54 (regs [(0xB, 0x54)])) (fun t => t.pc == 0x204) = true := by decide
/-- S11. -/
theorem test_se_imm_falls_through : gives (run 0x3154 (regs [(1, 0x95)])) (fun t => t.pc == 0x202) = true := by decide
/-- S10. -/
theorem test_sne_imm_skips : gives (run 0x4154 (regs [(1, 0x95)])) (fun t => t.pc == 0x204) = true := by decide
/-- S12. -/
theorem test_se_reg_skips :
    gives (run 0x5270 (regs [(2, 0x33), (7, 0x33)])) (fun t => t.pc == 0x204) = true := by decide
/-- V52. -/
theorem test_se_reg_falls_through : gives (run 0x5120 (regs [(2, 0x01)])) (fun t => t.pc == 0x202) = true := by decide
/-- V61: `VF` as a plain destination. -/
theorem test_ld_imm_into_vf : gives (run 0x6F00 (regs [(0xF, 0x55)])) (fun t => getV t 0xF == 0x00) = true := by decide
/-- S13. -/
theorem test_add_imm_wraps :
    gives (run 0x74FF (regs [(4, 0x90)])) (fun t => getV t 4 == 0x8F && getV t 0xF == 0 && t.pc == 0x202) = true := by decide
/-- V65. -/
theorem test_ld_reg : gives (run 0x8120 (regs [(1, 0x12), (2, 0x34)])) (fun t => getV t 1 == 0x34) = true := by decide
/-- S14, V67. -/
theorem test_or_reg :
    gives (run 0x8AC1 (regs [(0xA, 0x11), (0xC, 0x43), (0xF, 0x77)]))
      (fun t => getV t 0xA == 0x53 && getV t 0xC == 0x43 && getV t 0xF == 0x77) = true := by decide
/-- S15. -/
theorem test_and_reg :
    gives (run 0x8AC2 (regs [(0xA, 0x34), (0xC, 0xD3)])) (fun t => getV t 0xA == 0x10) = true := by decide

/-! ### FULL instructions: arithmetic and control -/

/-- V70. -/
theorem test_xor_reg :
    gives (run 0x8123 (regs [(1, 0x0F), (2, 0xFF), (0xF, 0x77)]))
      (fun t => getV t 1 == 0xF0 && getV t 0xF == 0x77) = true := by decide
/-- V72. -/
theorem test_add_reg_carries :
    gives (run 0x8014 (regs [(0, 0xFF), (1, 0x01)])) (fun t => getV t 0 == 0x00 && getV t 0xF == 1) = true := by decide
/-- V76: the source is `VF`. -/
theorem test_add_reg_reads_vf_first :
    gives (run 0x80F4 (regs [(0, 0x10), (0xF, 0x20)])) (fun t => getV t 0 == 0x30 && getV t 0xF == 0) = true := by decide
/-- V78. -/
theorem test_sub_reg_borrows :
    gives (run 0x8015 (regs [(0, 0x03), (1, 0x05)])) (fun t => getV t 0 == 0xFE && getV t 0xF == 0) = true := by decide
/-- V80: the destination is `VF`, and the flag wins. -/
theorem test_sub_reg_flag_last :
    gives (run 0x8F15 (regs [(0xF, 0x10), (1, 0x20)])) (fun t => getV t 0xF == 0) = true := by decide
/-- V81. -/
theorem test_shr_from_vy :
    gives (run 0x8016 (regs [(1, 0x03)])) (fun t => getV t 0 == 0x01 && getV t 0xF == 1 && getV t 1 == 0x03) = true := by
  decide
/-- V82. -/
theorem test_shr_from_vx :
    gives (run 0x8016 (under (fun c => { c with shiftSource := .vx }) (regs [(0, 0x02), (1, 0x03)])))
      (fun t => getV t 0 == 0x01 && getV t 0xF == 0) = true := by decide
/-- V84. -/
theorem test_subn_borrows :
    gives (run 0x8017 (regs [(0, 0x05), (1, 0x03)])) (fun t => getV t 0 == 0xFE && getV t 0xF == 0) = true := by decide
/-- V85. -/
theorem test_shl_from_vy :
    gives (run 0x801E (regs [(1, 0x81)])) (fun t => getV t 0 == 0x02 && getV t 0xF == 1) = true := by decide
/-- V86. -/
theorem test_shl_from_vx :
    gives (run 0x801E (under (fun c => { c with shiftSource := .vx }) (regs [(0, 0x40)])))
      (fun t => getV t 0 == 0x80 && getV t 0xF == 0) = true := by decide
/-- V90. -/
theorem test_sne_reg_skips :
    gives (run 0x9010 (regs [(0, 0x01), (1, 0x02)])) (fun t => t.pc == 0x204) = true := by decide
/-- V95: not reduced modulo 4096. -/
theorem test_jp_v0_leaves_memory :
    gives (run 0xBFFF (regs [(0, 0xFF)])) (fun t => t.pc == 0x10FE && t.fault.code == 0) = true := by decide
/-- V94. -/
theorem test_jp_v0_from_vx :
    gives (run 0xB300 (under (fun c => { c with jumpOffsetReg := .vx }) (regs [(3, 0x05)])))
      (fun t => t.pc == 0x305) = true := by decide
/-- V96. -/
theorem test_skp_skips :
    gives (run 0xE09E (setKey 3 true (regs [(0, 0x03)]))) (fun t => t.pc == 0x204) = true := by decide
/-- V98. -/
theorem test_skp_operand_fault : faults (run 0xE09E (regs [(0, 0x10)])) 7 0xE09E 0x200 = true := by decide
/-- V97. -/
theorem test_sknp_skips : gives (run 0xE0A1 (regs [(0, 0x03)])) (fun t => t.pc == 0x204) = true := by decide
/-- V98. -/
theorem test_sknp_operand_fault : faults (run 0xE0A1 (regs [(0, 0x10)])) 7 0xE0A1 0x200 = true := by decide

/-! ### FULL instructions: index and memory -/

/-- V100. -/
theorem test_ld_i : gives (run 0xA123 State.reset) (fun t => t.i == 0x123 && t.pc == 0x202) = true := by decide
/-- V102. -/
theorem test_add_i_wraps_at_16_bits :
    gives (run 0xF01E (withI 0xFFFF (regs [(0, 0x02)]))) (fun t => t.i == 0x0001 && getV t 0xF == 0) = true := by decide
/-- V104. -/
theorem test_ld_f : gives (run 0xF329 (regs [(3, 0x0F)])) (fun t => t.i == 0x004B) = true := by decide
/-- V105. -/
theorem test_ld_f_operand_fault : faults (run 0xF329 (regs [(3, 0x10)])) 7 0xF329 0x200 = true := by decide
/-- V106. -/
theorem test_ld_b_digits :
    gives (run 0xF033 (withI 0x300 (regs [(0, 0xFF)])))
      (fun t => readByte t 0x300 == 2 && readByte t 0x301 == 5 && readByte t 0x302 == 5) = true := by decide
/-- V109. -/
theorem test_ld_b_out_of_range :
    gives (run 0xF033 (withI 0xFFE (regs [(0, 0xFF)])))
      (fun t => t.fault.code == 5 && readByte t 0xFFE == 0 && t.i == 0xFFE) = true := by decide
/-- V111 under X_PLUS_1. -/
theorem test_ld_mem_top_of_memory :
    gives (run 0xF255 (under (fun c => { c with ldstIncrement := .xPlus1 })
        (withI 0xFFD (regs [(0, 0x10), (1, 0x11), (2, 0x12)]))))
      (fun t => readByte t 0xFFD == 0x10 && readByte t 0xFFF == 0x12 && t.i == 0x1000) = true := by decide
/-- V110. -/
theorem test_ld_mem_protected : faults (run 0xF055 (withI 0x050 State.reset)) 6 0xF055 0x200 = true := by decide
/-- V113. -/
theorem test_ld_vx_reads_font :
    gives (run 0xF165 State.reset) (fun t => getV t 0 == 0xF0 && getV t 1 == 0x90 && t.i == 0) = true := by decide
/-- V115. -/
theorem test_ld_vx_out_of_range : faults (run 0xF165 (withI 0xFFF State.reset)) 5 0xF165 0x200 = true := by decide

/-! ### FULL instructions: display, timers, keys -/

/-- V120: whatever the draw. -/
theorem test_rnd_mask_zero : gives (run 0xC000 (regs [(0, 0x55)])) (fun t => getV t 0 == 0 && t.draws == 1) = true := by
  have h : ∀ b : Byte, b &&& 0 = 0 := by decide
  have e : run 0xC000 (regs [(0, 0x55)]) =
      .next (decrementTimers (setV (countDraw (advance ((regs [(0, 0x55)]).withFetchWord 16 0xC000))) 0
        (Config.drawRand8 0 &&& 0))) := rfl
  rw [e, h]; decide
/-- V122: glyph 0 at the origin. -/
theorem test_drw_glyph :
    gives (run 0xD015 State.reset) (fun t => getV t 0xF == 0 && t.redrawPending &&
      shows t [(0, 0), (3, 0), (0, 2), (3, 3), (1, 4)] [(4, 0), (1, 1), (2, 3), (0, 5)]) = true := by decide
/-- V125: the right edge under WRAP. -/
theorem test_drw_wraps :
    gives (run 0xD015 (under (fun c => { c with drawEdge := .wrap }) (regs [(0, 0x3E)])))
      (fun t => shows t [(62, 0), (63, 0), (0, 0), (1, 2), (0, 4)] [(2, 0), (63, 1), (0, 3), (61, 0)]) = true := by decide
/-- V129. -/
theorem test_ld_vx_dt :
    gives (run 0xF307 (setDT State.reset 0x05)) (fun t => getV t 3 == 0x05 && t.dt == 0x04) = true := by decide
/-- V132. -/
theorem test_ld_vx_k_waits :
    gives (run 0xF50A { State.reset with pc := 0x300 })
      (fun t => t.blockingInput && t.blockingTarget == 5 && t.pc == 0x300) = true := by decide
/-- V130. -/
theorem test_ld_dt : gives (run 0xF015 (regs [(0, 0x03)])) (fun t => t.dt == 0x02) = true := by decide
/-- V131. -/
theorem test_ld_st : gives (run 0xF018 (regs [(0, 0x01)])) (fun t => t.st == 0x00) = true := by decide

/-! ### The cycle and the host -/

/-- V140. -/
theorem test_reset_runs_into_illegal_word : faults (step State.reset) 1 0x0000 0x200 = true := by decide
/-- V141. -/
theorem test_illegal_word_under_nop :
    gives (step (under (fun c => { c with illegalPolicy := .nop }) State.reset))
      (fun t => t.illegal == { seen := true, opcode := 0x0000, pc := 0x200 } && t.pc == 0x202 && t.fault.code == 0) =
      true := by decide
/-- V14. -/
theorem test_fetch_out_of_range : faults (step { State.reset with pc := 0x1000 }) 4 0x0000 0x1000 = true := by decide
/-- V13. -/
theorem test_fetch_at_the_last_word :
    gives (run 0x6007 { State.reset with pc := 0xFFE }) (fun t => getV t 0 == 0x07 && t.pc == 0x1000) = true := by decide
/-- V20. -/
theorem test_faulting_tick_counts_timers :
    gives (step { State.reset with dt := 2, st := 5 }) (fun t => t.fault.code == 1 && t.dt == 1 && t.st == 4) = true := by decide
/-- V134. -/
theorem test_key_poll_takes_smallest :
    gives (step (setKey 9 true (setKey 7 true (enterWait { State.reset with pc := 0x300 } 5))))
      (fun t => getV t 5 == 0x07 && !t.blockingInput && t.blockingTarget == 0 && t.pc == 0x302) = true := by decide
/-- S3, V147. -/
theorem test_load :
    loadImage (.bytes [0xAB, 0xCD, 0xEF]) (setV State.reset 3 9) =
      (.count 3, { setV State.reset 3 9 with mem := [(0x200, 0xAB), (0x201, 0xCD), (0x202, 0xEF)] }) := by decide

/-! ### Witnesses: a state and operands that meet the hypotheses of each statement -/

/-- Both shift sources. -/
theorem witness_shift_source :
    (regs []).cfg.shiftSource = .vy ∧ (under (fun c => { c with shiftSource := .vx }) (regs [])).cfg.shiftSource = .vx := by
  decide

/-- Both jump offset registers: `V0`, and under VX the register that the address names. -/
theorem witness_jump_offset :
    (regs []).cfg.jumpOffsetReg = .v0 ∧
    (under (fun c => { c with jumpOffsetReg := .vx }) (regs [])).cfg.jumpOffsetReg = .vx ∧
    (3 : RegIdx).val = (0x300 : Addr12).toNat / 256 := by decide

/-- RET: the empty stack, and a pop from one entry and from a full stack. -/
theorem witness_ret :
    (calls 0).sp = 0 ∧ (calls 1).sp.toNat = (0 : Fin 16).val + 1 ∧ (calls 16).sp.toNat = (15 : Fin 16).val + 1 := by decide

/-- CALL: a full stack, and a push onto an empty and an almost full one. -/
theorem witness_call :
    (calls 16).sp = 16 ∧ (calls 0).sp.toNat = (0 : Fin 16).val ∧ (calls 15).sp.toNat = (15 : Fin 16).val := by decide

/-- A stack pointer that R28 calls unreachable. -/
theorem witness_stack_pointer_above_sixteen : 16 < (calls 17).sp.toNat ∧ 16 < (calls 31).sp.toNat := by decide

/-- SE and SNE both answer, on equal and on different operands; words of families 5 and 9 with a nonzero low nibble. -/
theorem witness_skips :
    exec (.seImm 1 0x95) (regs [(1, 0x95)]) = .next (skipIf true (advance (regs [(1, 0x95)]))) ∧
    exec (.seImm 1 0x94) (regs [(1, 0x95)]) = .next (skipIf false (advance (regs [(1, 0x95)]))) ∧
    exec (.seReg 1 2) (regs [(1, 0x95)]) = .next (skipIf false (advance (regs [(1, 0x95)]))) ∧
    (0x5341#16).toNat / 4096 = 5 ∧ (0x5341#16).toNat % 16 ≠ 0 ∧ (0x912F#16).toNat / 4096 = 9 ∧
    (0x912F#16).toNat % 16 ≠ 0 :=
  ⟨rfl, rfl, rfl, by decide, by decide, by decide, by decide⟩

/-- ADD, SUB, SHR, SUBN, SHL: a destination that is not `VF`, and a bit index of OR, AND and XOR. -/
theorem witness_result_and_flag : (0xE : RegIdx) ≠ 0xF ∧ 7 < 8 ∧ 0 < 8 := by decide

/-- SKP, SKNP, LD F: the first value that names nothing, and the first and the last that name a key or glyph. -/
theorem witness_index_operand :
    0x0F < (getV (regs [(0, 0x10)]) 0).toNat ∧ (getV (regs [(0, 0x0F)]) 0).toNat = (15 : KeyIdx).val ∧
    (getV (regs []) 0).toNat = (0 : KeyIdx).val ∧ (getV (regs [(0, 0x0F)]) 0).toNat ≤ 0x0F := by decide

/-- LD B: the last protected start, the first and the last that store, the first that is out of range, and the largest `I`. -/
theorem witness_ld_b :
    (withI 0x1FF State.reset).i.toNat < 0x200 ∧
    0x200 ≤ (withI 0x200 State.reset).i.toNat ∧ (withI 0x200 State.reset).i.toNat + 2 ≤ 0xFFF ∧
    0x200 ≤ (withI 0xFFD State.reset).i.toNat ∧ (withI 0xFFD State.reset).i.toNat + 2 ≤ 0xFFF ∧
    0x200 ≤ (withI 0xFFE State.reset).i.toNat ∧ 0xFFF < (withI 0xFFE State.reset).i.toNat + 2 ∧
    0xFFF < (withI 0xFFFF State.reset).i.toNat + 2 := by decide

/-- LD [I], Vx and LD Vx, [I]: the same boundaries for one register and for all sixteen, and each increment. -/
theorem witness_ld_mem :
    (withI 0x1FF State.reset).i.toNat < 0x200 ∧
    0x200 ≤ (withI 0x200 State.reset).i.toNat ∧ (withI 0xFFF State.reset).i.toNat + (0 : RegIdx).val ≤ 0xFFF ∧
    (withI 0xFF0 State.reset).i.toNat + (0xF : RegIdx).val ≤ 0xFFF ∧
    0xFFF < (withI 0xFF1 State.reset).i.toNat + (0xF : RegIdx).val ∧
    0xFFF < (withI 0x1000 State.reset).i.toNat + (0 : RegIdx).val ∧
    (State.reset).cfg.ldstIncrement = .none ∧
    (under (fun c => { c with ldstIncrement := .xPlus1 }) State.reset).cfg.ldstIncrement = .xPlus1 ∧
    (under (fun c => { c with ldstIncrement := .x }) State.reset).cfg.ldstIncrement = .x := by decide

/-- DRW: no byte to read, the last byte of memory, and one byte past it; a covered cell that is 1 after one drawing, and no
covered cell that is 1 on a blank display. -/
theorem witness_drw :
    (0 : Fin 16).val = 0 ∧ (withI 0xFFF State.reset).i.toNat + (1 : Fin 16).val - 1 ≤ 0xFFF ∧
    0 < (2 : Fin 16).val ∧ 0xFFF < (withI 0xFFF State.reset).i.toNat + (2 : Fin 16).val - 1 := by decide

theorem witness_drw_collides :
    ∃ px py, spriteCovers { State.reset with disp := setPixel blankDisplay 0 0 true } 0 0 5 px py ∧
      getPixel { State.reset with disp := setPixel blankDisplay 0 0 true }.disp px py = true :=
  ⟨0, 0, ⟨0, 0, by decide, by decide, by decide, rfl, rfl⟩, by decide⟩

theorem witness_drw_does_not_collide :
    ¬ ∃ px py, spriteCovers State.reset 0 0 5 px py ∧ getPixel State.reset.disp px py = true := by
  rintro ⟨px, py, -, h⟩
  have : getPixel State.reset.disp px py = false := getPixel_blankDisplay px py
  rw [this] at h; cases h

/-- Two drawings in sequence both answer. -/
theorem witness_drawing_twice :
    (0 : RegIdx) ≠ 0xF ∧ (1 : RegIdx) ≠ 0xF ∧ State.reset.i.toNat + (5 : Fin 16).val ≤ 0x1000 ∧
    ∃ t u, exec (.drw 0 1 5) State.reset = .next t ∧ exec (.drw 0 1 5) t = .next u :=
  ⟨by decide, by decide, by decide, _, _, rfl, rfl⟩

/-- A state that executes the word `w` placed at its `pc`. -/
theorem executes_placed {s : State} {w : Nat} {i : Instr}
    (h : (s.withFetchWord 16 w).fault.code = 0 ∧ (s.withFetchWord 16 w).blockingInput = false ∧
      (s.withFetchWord 16 w).pc.toNat ≤ 0xFFE ∧
      decode (s.withFetchWord 16 w).cfg.profile
        (wordAt (s.withFetchWord 16 w) (s.withFetchWord 16 w).pc.toNat) = .instr i) :
    Executes (s.withFetchWord 16 w) i := ⟨h.1, h.2.1, h.2.2.1, h.2.2.2⟩

theorem witness_executes_ld_vx_dt : Executes (State.reset.withFetchWord 16 0xF307) (.ldVxDT 3) := executes_placed (by decide)
theorem witness_executes_ld_dt : Executes (State.reset.withFetchWord 16 0xFF15) (.ldDTVx 0xF) := executes_placed (by decide)
theorem witness_executes_ld_st : Executes (State.reset.withFetchWord 16 0xF018) (.ldSTVx 0) := executes_placed (by decide)

/-- A key-wait entered while keys 7 and 9 are already down. -/
theorem witness_executes_ld_vx_k :
    Executes ((setKey 9 true (setKey 7 true State.reset)).withFetchWord 16 0xF50A) (.ldVxK 5) ∧
    ((setKey 9 true (setKey 7 true State.reset)).withFetchWord 16 0xF50A).keys[(7 : KeyIdx).val] = true ∧
    ∀ j : KeyIdx, j < 7 → ((setKey 9 true (setKey 7 true State.reset)).withFetchWord 16 0xF50A).keys[j.val] = false :=
  ⟨executes_placed (by decide), by decide, by decide⟩

/-- A tick that runs an instruction to a next state, at the last address a fetch can start from, and one that stops. -/
theorem witness_step_runs :
    Executes ({ State.reset with pc := 0xFFE }.withFetchWord 16 0x6007) (.ldImm 0 7) ∧
    (∃ t, exec (.ldImm 0 7) ({ State.reset with pc := 0xFFE }.withFetchWord 16 0x6007) = .next t) ∧
    Executes ((calls 17).withFetchWord 16 0x00EE) .ret ∧
    exec .ret ((calls 17).withFetchWord 16 0x00EE) = .fault .stackPointerOutOfRange :=
  ⟨executes_placed (by decide), ⟨_, rfl⟩, executes_placed (by decide), rfl⟩

/-- An illegal word under each policy. -/
theorem witness_illegal_word :
    State.reset.fault.code = 0 ∧ State.reset.blockingInput = false ∧ State.reset.pc.toNat ≤ 0xFFE ∧
    0x0000#16 = wordAt State.reset State.reset.pc.toNat ∧ decode State.reset.cfg.profile 0x0000#16 = .illegal 0x0000#16 ∧
    State.reset.cfg.illegalPolicy = .halt ∧
    (under (fun c => { c with illegalPolicy := .nop }) State.reset).cfg.illegalPolicy = .nop := by decide

/-- A fetch at the first address that has no second byte, one above memory, and one at the last that has. -/
theorem witness_fetch :
    ({ State.reset with pc := 0xFFF } : State).fault.code = 0 ∧
    ({ State.reset with pc := 0xFFF } : State).blockingInput = false ∧
    0xFFF ≤ ({ State.reset with pc := 0xFFF } : State).pc.toNat ∧
    0xFFF ≤ ({ State.reset with pc := 0xFFFF } : State).pc.toNat ∧
    ({ State.reset with pc := 0xFFE } : State).pc.toNat ≤ 0xFFE := by decide

/-- A halted core, an event on it that is no reset, and a reset. -/
theorem witness_halted :
    (takeFault .stackOverflow 0x2200 State.reset).fault.code ≠ 0 ∧
    HostEvent.tick ≠ .reset ∧ gives (applyEvent .tick (takeFault .stackOverflow 0x2200 State.reset)) (fun _ => true) = true ∧
    gives (applyEvent .reset (takeFault .stackOverflow 0x2200 State.reset)) (fun _ => true) = true := by decide

/-- A tick that writes neither timer: a halted core executes nothing. -/
theorem witness_every_tick_no_write :
    (∃ t, step (takeFault .stackOverflow 0x2200 (setDT State.reset 3)) = .next t) ∧
    ∀ x, ¬ Executes (takeFault .stackOverflow 0x2200 (setDT State.reset 3)) (.ldDTVx x) :=
  ⟨⟨_, rfl⟩, fun _ h => absurd h.running (by decide)⟩

/-- A waiting core without a key, and with keys 7 and 9 down. -/
theorem witness_key_poll :
    (enterWait State.reset 5).fault.code = 0 ∧ (enterWait State.reset 5).blockingInput = true ∧
    (∀ k : KeyIdx, (enterWait State.reset 5).keys[k.val] = false) ∧
    (setKey 9 true (setKey 7 true (enterWait State.reset 5))).keys[(7 : KeyIdx).val] = true ∧
    ∀ j : KeyIdx, j < 7 → (setKey 9 true (setKey 7 true (enterWait State.reset 5))).keys[j.val] = false := by decide

/-- An instruction that raises its fault, and one that completes, in states with a legal stack pointer. -/
theorem witness_raised_fault :
    (calls 16).sp.toNat ≤ 16 ∧ raisedFault (.call 0x300) (calls 16) = some .stackOverflow ∧
    raisedFault (.call 0x300) (calls 15) = none := by decide

/-- A tick that ends in a fault, with and without a word to record. -/
theorem witness_faulting_step :
    State.reset.fault.code = 0 ∧ gives (step State.reset) (fun t => t.fault.code != 0) = true ∧
    State.reset.pc.toNat ≤ 0xFFE ∧
    gives (step { State.reset with pc := 0xFFF }) (fun t => t.fault.code != 0) = true := by decide

/-- Encoding: a well-formed instruction of each profile, a word that decodes, and the row that it and its instruction match. -/
theorem witness_encoding :
    (Instr.jp 0xFFF).wellFormed .base = true ∧ (Instr.drw 0xF 0xF 0xF).wellFormed .full = true ∧
    decode .full 0xDFFF#16 = .instr (.drw 0xF 0xF 0xF) ∧
    (⟨0xD000, 0xF000, .full⟩ : OpcodeRow) ∈ opcodeTable ∧ 0xDFFF#16 &&& 0xF000#16 = 0xD000#16 := by decide

/-- A reset answers a state. -/
theorem witness_reset : ∃ t, applyEvent .reset (calls 16) = .next t := ⟨_, rfl⟩

/-- A load of one byte, whose only byte is stored. -/
theorem witness_load : (1 : Nat) = min [(0xAB : Byte)].length 3584 ∧ 0 < [(0xAB : Byte)].length ∧ 0 < 1 := by decide

/-- A tick with `redraw_pending` set. -/
theorem witness_redraw :
    ({ State.reset with redrawPending := true } : State).redrawPending = true ∧
    gives (step { State.reset with redrawPending := true }) (fun _ => true) = true := by decide

/-- A core under BASE outside a key-wait that ticks. -/
theorem witness_base :
    State.reset.cfg.profile = .base ∧ State.reset.blockingInput = false ∧
    HostEvent.tick ≠ .reset ∧ (∀ image, HostEvent.tick ≠ .load image) ∧
    ∃ t, applyEvent .tick State.reset = .next t ∧ step State.reset = .next t :=
  ⟨rfl, rfl, by decide, nofun, _, rfl, rfl⟩

/-- V46: a parked core. -/
theorem witness_parked : parked (State.reset.withFetchWord 16 0x1200) = true := by decide

/-- A FULL core in a key-wait, with a byte stored and a full stack, meets the invariant. -/
def busyCore : State :=
  enterWait { under fullProfile (calls 16) with mem := [(0x300, 0xF5)], i := 0x300, dt := 7 } 5

theorem witness_invariant : CoreInv busyCore where
  memCanonical := by decide
  lowMemory := fun a ha => by
    have : (0x300 : Nat) ≠ a := by omega
    simp [busyCore, readByte, memRead, enterWait, under, this]
  spRange := by decide
  stackRange := by decide
  pcRange := by decide
  waitPc := by decide
  waitProfile := by decide
  targetIdle := by decide
  faultRange := by decide
  faultClear := by decide
  faultPc := by decide
  reportIdle := by decide
  baseIdle := by decide

/-- A tick of a core with a running sound timer. -/
theorem witness_sound_timer : gives (step (setST State.reset 5)) (fun t => t.st == 4) = true := by decide

end Sys2Proof.Machine.Tests
end

section
/-! SUPPORT. What keeps the invariant `CoreInv`: one rule per operation on the state, then every instruction as a composition of
those rules, then the tick. The side conditions of a rule are what the invariant asks of the element that the operation writes. -/

namespace Sys2Proof.Machine

section
variable {s t : State} {i : Instr}

/-! ### The state at construction -/

/-- The state after a reset meets the invariant, under every configuration (R340). -/
theorem coreInv_fresh (cfg : Config) (draws : Nat) : CoreInv (State.fresh cfg draws) where
  memCanonical := ⟨List.Pairwise.nil, nofun⟩
  lowMemory    := fun _ _ => rfl
  spRange      := Nat.zero_le _
  stackRange   := fun k => by simp [State.fresh]
  pcRange      := by cases h : cfg.profile <;> simp [State.fresh, pcLimit, h]
  waitPc       := nofun
  waitProfile  := fun _ => rfl
  targetIdle   := fun _ => rfl
  faultRange   := Nat.zero_le _
  faultClear   := fun _ => ⟨rfl, rfl⟩
  faultPc      := fun h => absurd rfl h
  reportIdle   := fun _ => rfl
  baseIdle     := fun _ => ⟨rfl, rfl, rfl⟩

/-! ### Operations that keep the invariant in every state -/

theorem CoreInv.after_setV (h : CoreInv s) (x : RegIdx) (b : Byte) : CoreInv (setV s x b) := { h with }

theorem CoreInv.after_setResultThenFlag (h : CoreInv s) (x : RegIdx) (r f : Byte) : CoreInv (setResultThenFlag s x r f) :=
  (h.after_setV x r).after_setV 0xF f

theorem CoreInv.after_setDisplay (h : CoreInv s) (d : Display) : CoreInv (setDisplay s d) := { h with }

theorem CoreInv.after_countDraw (h : CoreInv s) : CoreInv (countDraw s) := { h with }

theorem CoreInv.after_loadRegs (h : CoreInv s) (base : Nat) (ks : List RegIdx) : CoreInv (loadRegs s base ks) := by
  induction ks generalizing s with
  | nil => exact h
  | cons k ks ih => exact ih (h.after_setV k _)

theorem CoreInv.after_leaveWait (h : CoreInv s) : CoreInv (leaveWait s) :=
  { h with waitPc := nofun, waitProfile := fun _ => rfl, targetIdle := fun _ => rfl }

/-- A timer at zero stays there, which is what BASE asks (R29, R30, R125). -/
theorem CoreInv.after_decrementTimers (h : CoreInv s) : CoreInv (decrementTimers s) :=
  { h with
    baseIdle := fun hp => by
      obtain ⟨hi, hdt, hst⟩ := h.baseIdle hp
      simp [decrementTimer, hi, hdt, hst] }

/-- The codes of R300 are 1 to 7. -/
theorem faultCode_range (f : CoreFault) : 0 < (faultCode f).toNat ∧ (faultCode f).toNat ≤ 7 := by cases f <;> decide

/-- A fault is taken at the start of the step, so `pc` is the address it records (R310). -/
theorem CoreInv.after_takeFault (h : CoreInv s) (f : CoreFault) (w : Word) : CoreInv (takeFault f w s) :=
  { h with
    faultRange := (faultCode_range f).2
    faultClear := fun (h0 : faultCode f = 0) => absurd (faultCode_range f).1 (by simp [h0])
    faultPc    := fun _ => rfl }

/-! ### Operations with a side condition -/

theorem CoreInv.after_setI (h : CoreInv s) (hp : s.cfg.profile = .full) (w : Word) : CoreInv (setI s w) :=
  { h with baseIdle := fun hb => by simp [hp] at hb }

theorem CoreInv.after_setDT (h : CoreInv s) (hp : s.cfg.profile = .full) (b : Byte) : CoreInv (setDT s b) :=
  { h with baseIdle := fun hb => by simp [hp] at hb }

theorem CoreInv.after_setST (h : CoreInv s) (hp : s.cfg.profile = .full) (b : Byte) : CoreInv (setST s b) :=
  { h with baseIdle := fun hb => by simp [hp] at hb }

theorem CoreInv.after_reportIllegal (h : CoreInv s) (hp : s.cfg.illegalPolicy = .nop) (op a : Word) :
    CoreInv (reportIllegal s op a) :=
  { h with reportIdle := fun hh => by simp [hp] at hh }

theorem CoreInv.after_enterWait (h : CoreInv s) (hp : s.cfg.profile = .full) (hpc : s.pc.toNat ≤ 0xFFE) (x : RegIdx) :
    CoreInv (enterWait s x) :=
  { h with
    waitPc      := fun _ => hpc
    waitProfile := fun hb => by simp [hp] at hb
    targetIdle  := nofun }

/-- `pc` moves only while the core is neither halted nor waiting, and only within R25's bound. -/
theorem CoreInv.after_jumpTo (h : CoreInv s) (running : s.fault.code = 0) (awake : s.blockingInput = false) {target : Word}
    (ht : target.toNat ≤ pcLimit s.cfg.profile) : CoreInv (jumpTo s target) :=
  { h with
    pcRange := ht
    waitPc  := fun hw => by simp [awake] at hw
    faultPc := fun hf => absurd running hf }

/-- 0x1002, the address a skip at 0xFFE leads to, is within R25's bound under both profiles. -/
theorem le_pcLimit {n : Nat} (h : n ≤ 0x1002) (p : IsaProfile) : n ≤ pcLimit p := by
  cases p <;> simp only [pcLimit] <;> omega

theorem CoreInv.after_advance (h : CoreInv s) (running : s.fault.code = 0) (awake : s.blockingInput = false)
    (hpc : s.pc.toNat ≤ 0xFFE) : CoreInv (advance s) :=
  h.after_jumpTo running awake (le_pcLimit (by simp; omega) _)

/-- A skip follows an advance from at most 0xFFE. -/
theorem CoreInv.after_skipIf (h : CoreInv s) (running : s.fault.code = 0) (awake : s.blockingInput = false)
    (hpc : s.pc.toNat ≤ 0x1000) (c : Bool) : CoreInv (skipIf c s) := by
  cases c with
  | false => exact h
  | true => exact h.after_jumpTo running awake (le_pcLimit (by simp; omega) _)

/-- A store above the protected region keeps the low memory as loaded (R67). -/
theorem CoreInv.after_writeByte (h : CoreInv s) {a : Nat} (hlo : programBase ≤ a) (hhi : a < memSize) (b : Byte) :
    CoreInv (writeByte s a b) :=
  { h with
    memCanonical := memWrite_wf h.memCanonical hhi b
    lowMemory    := fun a' ha' => by
      have hne : a' ≠ a := by simp only [programBase] at hlo; omega
      rw [readByte_writeByte, if_neg hne]
      exact h.lowMemory a' ha' }

theorem CoreInv.after_writeBytes (h : CoreInv s) (bs : List Byte) {a : Nat} (hlo : programBase ≤ a)
    (hhi : a + bs.length ≤ memSize) : CoreInv (writeBytes s a bs) := by
  induction bs generalizing s a with
  | nil => exact h
  | cons b bs ih =>
    rw [List.length_cons] at hhi
    exact ih (h.after_writeByte hlo (by omega) b) (by omega) (by omega)

/-! ### The call stack -/

/-- A return address on the stack is at most 0x1000; a `k` above 15 names no entry and reads as 0. -/
theorem CoreInv.stackEntry_le (h : CoreInv s) (k : Nat) : (stackEntry s k).toNat ≤ 0x1000 := by
  unfold stackEntry
  by_cases hk : k < 16
  · simpa [hk] using h.stackRange ⟨k, hk⟩
  · simp [hk]

theorem CoreInv.after_pushReturn (h : CoreInv s) (hsp : s.sp.toNat < 16) {ret : Word} (hret : ret.toNat ≤ 0x1000) :
    CoreInv (pushReturn s ret) :=
  { h with
    spRange    := by simp; omega
    stackRange := fun k => by
      simp only [pushReturn_stack, Vector.getElem_setIfInBounds]
      split
      · exact hret
      · exact h.stackRange k }

theorem CoreInv.after_popSp (h : CoreInv s) (hsp : s.sp ≠ 0) : CoreInv (popSp s) :=
  { h with
    spRange := by
      have := h.spRange
      simp only [popSp_sp]
      bv_omega }

/-! ### Every instruction -/

/-- A FULL instruction is executed under profile FULL alone (R95). -/
theorem Executes.profile_full (hx : Executes s i) (hi : i.profile = .full) : s.cfg.profile = .full := by
  have hwf := (decode_eq_instr hx.decoded).2
  cases hp : s.cfg.profile with
  | full => rfl
  | base => simp [Instr.wellFormed, IsaProfile.admits, hi, hp] at hwf

/-- Where `sp` is at most 16, as R28 says, every instruction answers a next state: a completed one or a fault's. -/
theorem exec_answers (hsp : s.sp.toNat ≤ 16) (i : Instr) : ∃ t, exec i s = .next t := by
  have hle : ¬ 16 < s.sp.toNat := by omega
  cases i with
  | ret | call =>
    simp only [exec, execRet, execCall, raise, hle, if_false]
    split <;> exact ⟨_, rfl⟩
  | skp | sknp | ldFVx | ldBVx | ldMemVx | ldVxMem | drw =>
    simp only [exec, execSkp, execSknp, execLdFVx, execLdBVx, execLdMemVx, execLdVxMem, execDrw, raise]
    split <;> exact ⟨_, rfl⟩
  | _ => exact ⟨_, rfl⟩

/-- An executed instruction keeps the invariant, whether it completes or ends in a fault. -/
theorem CoreInv.after_exec (h : CoreInv s) (hx : Executes s i) (he : exec i s = .next t) : CoreInv t := by
  have ⟨running, awake, inRange, _⟩ := hx
  have hadv : CoreInv (advance s) := h.after_advance running awake inRange
  have hret : (advance s).pc.toNat ≤ 0x1000 := by simp; omega
  have hskip (c : Bool) : CoreInv (skipIf c (advance s)) := hadv.after_skipIf running awake hret c
  have hnnn (nnn : Addr12) (p : IsaProfile) : (zextAddr nnn).toNat ≤ pcLimit p :=
    le_pcLimit (by rw [zextAddr_toNat]; omega) p
  cases i with
  | cls => cases he; exact hadv.after_setDisplay _
  | ret =>
    simp only [exec, execRet, raise] at he
    split at he
    · cases he; exact h.after_takeFault _ _
    next hsp =>
      split at he <;> cases he
      have hentry := h.stackEntry_le (s.sp.toNat - 1)
      exact (hadv.after_popSp hsp).after_jumpTo running awake (le_pcLimit (by omega) _)
  | jp nnn => cases he; exact hadv.after_jumpTo running awake (hnnn nnn _)
  | call nnn =>
    simp only [exec, execCall, raise] at he
    split at he
    · cases he; exact h.after_takeFault _ _
    next hsp =>
      split at he <;> cases he
      have hlt : (advance s).sp.toNat < 16 := by rw [advance_sp]; bv_omega
      exact (hadv.after_pushReturn hlt hret).after_jumpTo running awake (hnnn nnn _)
  | seImm | sneImm | seReg | sneReg => cases he; exact hskip _
  | ldImm | addImm | ldReg | orReg | andReg | xorReg | ldVxDT => cases he; exact hadv.after_setV _ _
  | addReg | subReg | shr | subn | shl => cases he; exact hadv.after_setResultThenFlag _ _ _
  | ldI | addIVx => cases he; exact hadv.after_setI (hx.profile_full rfl) _
  | jpV0 nnn =>
    cases he
    have hfull : (advance s).cfg.profile = .full := hx.profile_full rfl
    have hsum : (zextAddr nnn + zextByte (jumpOffset s nnn)).toNat ≤ 0x10FE := by
      rw [BitVec.toNat_add, zextAddr_toNat, zextByte_toNat]; omega
    exact hadv.after_jumpTo running awake (by rw [hfull]; exact hsum)
  | rnd => cases he; exact hadv.after_countDraw.after_setV _ _
  | drw x y n =>
    simp only [exec, execDrw, raise] at he
    split at he <;> cases he
    · exact h.after_takeFault _ _
    · exact (hadv.after_setDisplay _).after_setV _ _
  | skp | sknp =>
    simp only [exec, execSkp, execSknp, raise] at he
    split at he <;> cases he
    · exact h.after_takeFault _ _
    · exact hskip _
  | ldVxK x => cases he; exact h.after_enterWait (hx.profile_full rfl) inRange x
  | ldDTVx => cases he; exact hadv.after_setDT (hx.profile_full rfl) _
  | ldSTVx => cases he; exact hadv.after_setST (hx.profile_full rfl) _
  | ldFVx x =>
    simp only [exec, execLdFVx, raise] at he
    split at he <;> cases he
    · exact h.after_takeFault _ _
    · exact hadv.after_setI (hx.profile_full rfl) _
  | ldBVx x =>
    simp only [exec, execLdBVx, raise] at he
    split at he <;> cases he
    · exact h.after_takeFault _ _
    next hc =>
      obtain hc | ⟨hlo, hhi⟩ := (checkWrites_none _ _).mp hc
      · omega
      · exact hadv.after_writeBytes _ hlo hhi
  | ldMemVx x =>
    simp only [exec, execLdMemVx, raise] at he
    split at he <;> cases he
    · exact h.after_takeFault _ _
    next hc =>
      obtain hc | ⟨hlo, hhi⟩ := (checkWrites_none _ _).mp hc
      · omega
      · have hlen : s.i.toNat + ((regsUpTo x).map (getV s)).length ≤ memSize := by
          rwa [List.length_map, regsUpTo_length]
        have hfull := hx.profile_full rfl
        exact (hadv.after_writeBytes _ hlo hlen).after_setI (by simpa using hfull) _
  | ldVxMem x =>
    simp only [exec, execLdVxMem, raise] at he
    split at he <;> cases he
    · exact h.after_takeFault _ _
    · have hfull := hx.profile_full rfl
      exact (hadv.after_loadRegs _ _).after_setI (by simpa using hfull) _

/-! ### The tick -/

/-- The poll ends at `pc + 2` from the address of the waiting Fx0A, or changes nothing (R127). -/
theorem CoreInv.after_keyPoll (h : CoreInv s) (running : s.fault.code = 0) (waiting : s.blockingInput = true) :
    CoreInv (keyPoll s) := by
  unfold keyPoll
  split
  · exact (h.after_setV _ _).after_leaveWait.after_advance running rfl (h.waitPc waiting)
  · exact h

/-- Where `sp` is at most 16 a step outside a key-wait answers a next state. -/
theorem fetchExecute_answers (hsp : s.sp.toNat ≤ 16) : ∃ t, fetchExecute s = .next t := by
  unfold fetchExecute
  split
  · exact ⟨_, rfl⟩
  · split
    · exact exec_answers hsp _
    · unfold execIllegal
      split <;> exact ⟨_, rfl⟩

/-- Where `sp` is at most 16 a tick answers a next state. -/
theorem step_answers (hsp : s.sp.toNat ≤ 16) : ∃ t, step s = .next t := by
  unfold step tick
  split
  · exact ⟨_, rfl⟩
  · unfold coreStep
    split
    · exact ⟨_, rfl⟩
    · obtain ⟨t, ht⟩ := fetchExecute_answers hsp
      exact ⟨decrementTimers t, by rw [ht, thenTimers]⟩

/-- Whatever a tick does, it keeps the invariant. -/
theorem CoreInv.after_step (h : CoreInv s) (hs : step s = .next t) : CoreInv t := by
  rcases step_cases hs with ⟨-, rfl⟩ | ⟨running, waiting, rfl⟩ | ⟨-, -, -, rfl⟩ |
    ⟨running, awake, inRange, -, ⟨-, rfl⟩ | ⟨hnop, rfl⟩⟩ | ⟨i, t', hx, he, rfl⟩
  · exact h.after_decrementTimers
  · exact (h.after_keyPoll running waiting).after_decrementTimers
  · exact (h.after_takeFault _ _).after_decrementTimers
  · exact (h.after_takeFault _ _).after_decrementTimers
  · exact ((h.after_advance running awake inRange).after_reportIllegal hnop _ _).after_decrementTimers
  · exact (h.after_exec hx he).after_decrementTimers

/-! ### The halted core -/

/-- A halted core performs no step: its tick is the timer decrement (R37, R120). -/
theorem step_of_halted (hf : s.fault.code ≠ 0) : step s = .next (decrementTimers s) := by
  rw [step, tick, show halted s = true by simpa [halted] using hf, if_pos rfl, thenTimers]

/-- The decrement changes the timers and nothing else (R125). -/
theorem unchangedExcept_decrementTimers (s : State) : UnchangedExcept s (decrementTimers s) Elem.ofTimers := by
  intro e he
  cases e <;> simp [Elem.same, Elem.ofTimers] at he ⊢

/-- A load writes memory alone (R136). -/
theorem loadImage_fault (image : Image) (s : State) : (loadImage image s).2.fault = s.fault := by
  cases image <;> simp [loadImage]

/-- On a halted core every event but a reset leaves the fault register as it is (R36, R312). -/
theorem applyEvent_fault_of_halted {e : HostEvent} (hf : s.fault.code ≠ 0) (hne : e ≠ .reset) (he : applyEvent e s = .next t) :
    t.fault = s.fault := by
  cases e with
  | tick =>
    rw [applyEvent, step_of_halted hf] at he
    cases he; rfl
  | reset => exact absurd rfl hne
  | load image => cases he; exact loadImage_fault image s
  | setKey k b => cases he; rfl
  | ackRedraw => cases he; rfl

end

/-! ### The statements -/

/-- Settles O56: the tick answers because `sp` is at most 16, and every kind of tick keeps the invariant. -/
theorem stepAdvancesAndKeepsInvariant : Obligations.StepAdvancesAndKeepsInvariant := by
  intro s h
  obtain ⟨t, ht⟩ := step_answers h.spRange
  exact ⟨t, ht, h.after_step ht⟩

/-- Settles O10: RET's and CALL's tests of `sp` for 0 and for 16 both fail above 16, so the model's own stop is left. -/
theorem stackPointerAboveSixteenStops : Obligations.StackPointerAboveSixteenStops := by
  intro s hsp
  have h0 : s.sp ≠ 0 := by bv_omega
  have h16 : s.sp ≠ 16 := by bv_omega
  exact ⟨by rw [exec, execRet, if_neg h0, if_pos hsp], fun nnn => by rw [exec, execCall, if_neg h16, if_pos hsp]⟩

/-- Settles O40: the halted tick is the timer decrement, and no event but a reset touches the fault register. -/
theorem haltedCoreOnlyCountsTimersUntilReset : Obligations.HaltedCoreOnlyCountsTimersUntilReset := by
  intro s hf
  refine ⟨⟨decrementTimers s, step_of_halted hf, ?_, ?_, unchangedExcept_decrementTimers s⟩, ?_, ?_⟩
  · exact decrementTimer_toNat s.dt
  · exact decrementTimer_toNat s.st
  · exact fun e t hne he => applyEvent_fault_of_halted hf hne he
  · intro t ht
    cases ht; rfl

/-- Settles O55: the state at construction is the reset state of the default configuration. -/
theorem resetStateMeetsInvariant : Obligations.ResetStateMeetsInvariant := coreInv_fresh defaultConfig 0

end Sys2Proof.Machine
end

section
/-! SUPPORT. Memory and the fetch (spec/20_memory.md): the tick that fetches out of range, the frame of a tick from that of its
step, and what an execution under BASE leaves alone, said first of one instruction, then of one tick, then of one event. -/

namespace Sys2Proof.Machine

section
variable {s t : State} {i : Instr}

/-! ### The fetch -/

/-- A running core whose `pc` is at or above 0xFFF enters the fetch fault, with the word 0x0000 (R64, R304). -/
theorem step_of_fetch_none (hf : s.fault.code = 0) (awake : s.blockingInput = false) (hpc : 0xFFF ≤ s.pc.toNat) :
    step s = .next (decrementTimers (takeFault .fetchOutOfRange 0x0000 s)) := by
  simp [step, tick, halted, hf, coreStep, awake, fetchExecute, fetch_none hpc, raise, thenTimers]

/-- An element that two changes in a row leave alone has its first value at the end. -/
theorem Elem.same_trans {u : State} {e : Elem} (h₁ : Elem.same s t e) (h₂ : Elem.same t u e) : Elem.same s u e := by
  cases e <;> exact Eq.trans h₂ h₁

/-- The end of a tick adds the timers to what the step may change (R120). -/
theorem UnchangedExcept.then_decrementTimers {written : Elem → Prop} (h : UnchangedExcept s t written) :
    UnchangedExcept s (decrementTimers t) (fun e => written e ∨ e.ofTimers) := by
  intro e he
  obtain ⟨hstep, htimers⟩ := not_or.mp he
  exact Elem.same_trans (h e hstep) (unchangedExcept_decrementTimers t e htimers)

/-- The word at an address is 256 times its first byte plus its second (R63). -/
theorem wordAt_eq_ofNat (s : State) (a : Nat) :
    wordAt s a = BitVec.ofNat 16 (256 * (readByte s a).toNat + (readByte s (a + 1)).toNat) := by
  rw [wordAt, ← wordOfBytes_toNat, BitVec.ofNat_toNat, BitVec.setWidth_eq]

/-! ### Execution under BASE -/

/-- Under BASE only a BASE instruction is executed (R95). -/
theorem Executes.instr_profile_base (hx : Executes s i) (hp : s.cfg.profile = .base) : i.profile = .base := by
  cases hi : i.profile with
  | base => rfl
  | full => simp [hx.profile_full hi] at hp

/-- No BASE instruction stores to memory, writes `I`, takes a draw or enters a key-wait, even where it faults (R71, R26, R35). -/
theorem exec_base_frame (hi : i.profile = .base) (h : exec i s = .next t) :
    t.mem = s.mem ∧ t.i = s.i ∧ t.draws = s.draws ∧ t.blockingInput = s.blockingInput := by
  cases i with
  | ret | call =>
    simp only [exec, execRet, execCall, raise] at h
    split at h
    · cases h; simp
    split at h <;> cases h
    simp
  | cls | jp | seImm | sneImm | seReg | ldImm | addImm | ldReg | orReg | andReg => cases h; simp
  | _ => cases hi

/-- A tick under BASE leaves memory, `I` and the count of draws alone, and does not enter a key-wait. -/
theorem step_base_frame (hp : s.cfg.profile = .base) (h : step s = .next t) :
    t.mem = s.mem ∧ t.cfg = s.cfg ∧ t.i = s.i ∧ t.draws = s.draws ∧ (s.blockingInput = false → t.blockingInput = false) := by
  rcases step_cases h with ⟨-, rfl⟩ | ⟨-, waiting, rfl⟩ | ⟨-, -, -, rfl⟩ | ⟨-, -, -, -, ⟨-, rfl⟩ | ⟨-, rfl⟩⟩ |
    ⟨i, t', hx, he, rfl⟩
  · simp
  · obtain ⟨-, -, hcfg, -, -, -, hmem, -, hi, -, -, -, hdraws⟩ := keyPoll_frame s
    simp [hmem, hcfg, hi, hdraws, waiting]
  · simp
  · simp
  · simp
  · obtain ⟨hmem, hi, hdraws, hwait⟩ := exec_base_frame (hx.instr_profile_base hp) he
    simp [hmem, (exec_frame he).1, hi, hdraws, hwait]

/-- Under BASE every event but a load and a reset leaves memory alone (R71). -/
theorem applyEvent_base_readByte {e : HostEvent} (hp : s.cfg.profile = .base) (hload : ∀ image, e ≠ .load image)
    (hreset : e ≠ .reset) (h : applyEvent e s = .next t) (a : Nat) : readByte t a = readByte s a := by
  cases e with
  | tick =>
    obtain ⟨hmem, hcfg, -⟩ := step_base_frame hp h
    exact readByte_congr hmem hcfg a
  | reset => exact absurd rfl hreset
  | load image => exact absurd rfl (hload image)
  | setKey k b => cases h; simp
  | ackRedraw => cases h; simp

end

/-! ### The statements -/

/-- Settles O53: no BASE instruction touches memory, `I`, the wait flag or the draws, and the decoder admits no other under BASE. -/
theorem baseProfileLeavesMemoryAndIndex : Obligations.BaseProfileLeavesMemoryAndIndex := by
  intro s hp
  refine ⟨fun _ _ => applyEvent_base_readByte hp, fun t awake h => ?_⟩
  obtain ⟨-, -, hi, hdraws, hwait⟩ := step_base_frame hp h
  exact ⟨hi, hdraws, hwait awake⟩

/-- Settles O39: the fetch above 0xFFE is none, which the tick answers with the fault's entry; below, it is the word at `pc`. -/
theorem fetchOutOfRangeFaults : Obligations.FetchOutOfRangeFaults := by
  refine ⟨fun s hf awake hpc => ?_, fun s hpc => ?_⟩
  · exact ⟨_, step_of_fetch_none hf awake hpc, rfl, (takeFault_enters _ _ s).2.then_decrementTimers⟩
  · rw [fetch_some hpc, wordAt_eq_ofNat]

end Sys2Proof.Machine
end

section
/-! SUPPORT. Encoding (spec/30_encoding.md): the row of the opcode map that a word matches, read from an instruction's word and
back; the rows against the decoder; and the illegal words by their nibbles. -/

namespace Sys2Proof.Machine

open Laws

section
variable {p : IsaProfile} {w v : Word} {i : Instr} {x y : RegIdx}

/-! ### From an instruction to its word and back -/

/-- The word of an instruction matches that instruction's row, format by format: its fields are the operands (R92, R97). -/
theorem decodeRow_encode (i : Instr) : decodeRow (encode i) = some i := by
  cases i with
  | cls | ret => rfl
  | jp | call | ldI | jpV0 => simp [encode, decodeRow]
  | seImm | sneImm | ldImm | addImm | rnd => simp [encode, decodeRow]
  | seReg | sneReg | drw => simp [encode, decodeRow]
  | ldReg | orReg | andReg | xorReg | addReg | subReg | shr | subn | shl => simp [encode, decodeRow, decodeFamily8]
  | skp | sknp => simp [encode, decodeRow, decodeFamilyE]
  | ldVxDT | ldVxK | ldDTVx | ldSTVx | addIVx | ldFVx | ldBVx | ldMemVx | ldVxMem => simp [encode, decodeRow, decodeFamilyF]

/-- An admitted row is what the word decodes to (R95). -/
theorem decode_of_decodeRow (h : decodeRow w = some i) (hwf : i.wellFormed p = true) : decode p w = .instr i := by
  simp [decode, h, hwf]

theorem decode_encode (hwf : i.wellFormed p = true) : decode p (encode i) = .instr i :=
  decode_of_decodeRow (decodeRow_encode i) hwf

/-- The decoder over bytes takes an instruction's two bytes and leaves the bytes after them (R63, R90). -/
theorem decodeBytes_encodeBytes (hwf : i.wellFormed p = true) (rest : List Byte) :
    decodeBytes p (encodeBytes i ++ rest) = .ok (i, rest) := by
  simp [encodeBytes, decodeBytes, wordOfBytes_highByte_lowByte, decode_encode hwf]

/-! ### From a word to its instruction and back

Each format puts the fields of a word back where they came from. -/

theorem fmtAddr_fields {f : BitVec 4} (hf : (fieldFamily w).toNat = f.toNat) : fmtAddr f (fieldNNN w) = w := by
  rw [fieldFamily_toNat] at hf
  apply BitVec.eq_of_toNat_eq
  rw [fmtAddr_toNat, fieldNNN_toNat]; omega

theorem fmtReg_fields {f : BitVec 4} {ff : Byte} (hf : (fieldFamily w).toNat = f.toNat)
    (hff : (fieldNN w).toNat = ff.toNat) : fmtReg f (fieldX w) ff = w := by
  rw [fieldFamily_toNat] at hf
  rw [fieldNN_toNat] at hff
  apply BitVec.eq_of_toNat_eq
  rw [fmtReg_toNat, fieldX_val]; omega

theorem fmtRegImm_fields {f : BitVec 4} (hf : (fieldFamily w).toNat = f.toNat) :
    fmtRegImm f (fieldX w) (fieldNN w) = w := fmtReg_fields hf rfl

theorem fmtRegReg_fields {f low : BitVec 4} (hf : (fieldFamily w).toNat = f.toNat)
    (hlow : (fieldN w).toNat = low.toNat) : fmtRegReg f (fieldX w) (fieldY w) low = w := by
  rw [fieldFamily_toNat] at hf
  rw [fieldN_toNat] at hlow
  apply BitVec.eq_of_toNat_eq
  rw [fmtRegReg_toNat, fieldX_val, fieldY_val]; omega

theorem encode_of_decodeFamily8 {n : Nat} (h : decodeFamily8 n x y = some i) :
    encode i = fmtRegReg 0x8 x y (BitVec.ofNat 4 n) := by
  unfold decodeFamily8 at h
  split at h <;> cases h <;> rfl

theorem encode_of_decodeFamilyE {nn : Nat} (h : decodeFamilyE nn x = some i) :
    encode i = fmtReg 0xE x (BitVec.ofNat 8 nn) := by
  unfold decodeFamilyE at h
  split at h <;> cases h <;> rfl

theorem encode_of_decodeFamilyF {nn : Nat} (h : decodeFamilyF nn x = some i) :
    encode i = fmtReg 0xF x (BitVec.ofNat 8 nn) := by
  unfold decodeFamilyF at h
  split at h <;> cases h <;> rfl

/-- A word that matches a row is the word of the row's instruction: family by family, the decoder reads every bit that the
format writes (R96). -/
theorem encode_of_decodeRow (h : decodeRow w = some i) : encode i = w := by
  unfold decodeRow at h
  split at h
  case h_1 =>
    split at h
    next hw => cases h; exact hw.symm
    next =>
      split at h
      next hw => cases h; exact hw.symm
      next => cases h
  case h_2 hf | h_3 hf | h_11 hf | h_12 hf => cases h; exact fmtAddr_fields hf
  case h_4 hf | h_5 hf | h_7 hf | h_8 hf | h_13 hf => cases h; exact fmtRegImm_fields hf
  case h_6 hf | h_10 hf =>
    split at h
    next hn => cases h; exact fmtRegReg_fields hf (congrArg _ hn)
    next => cases h
  case h_9 hf => exact (encode_of_decodeFamily8 h).trans (fmtRegReg_fields hf (by simp))
  case h_14 hf => cases h; exact fmtRegReg_fields hf rfl
  case h_15 hf => exact (encode_of_decodeFamilyE h).trans (fmtReg_fields hf (by simp))
  case h_16 hf => exact (encode_of_decodeFamilyF h).trans (fmtReg_fields hf (by simp))
  case h_17 => cases h

/-! ### The rows of the opcode map -/

/-- Every instruction has its row (R97). -/
theorem encodingRow : ∀ i : Instr, EncodingRow.Statement i
  | .cls => EncodingRow.cls
  | .ret => EncodingRow.ret
  | .jp nnn => EncodingRow.jp nnn
  | .call nnn => EncodingRow.call nnn
  | .seImm x nn => EncodingRow.seImm x nn
  | .sneImm x nn => EncodingRow.sneImm x nn
  | .seReg x y => EncodingRow.seReg x y
  | .ldImm x nn => EncodingRow.ldImm x nn
  | .addImm x nn => EncodingRow.addImm x nn
  | .ldReg x y => EncodingRow.ldReg x y
  | .orReg x y => EncodingRow.orReg x y
  | .andReg x y => EncodingRow.andReg x y
  | .xorReg x y => EncodingRow.xorReg x y
  | .addReg x y => EncodingRow.addReg x y
  | .subReg x y => EncodingRow.subReg x y
  | .shr x y => EncodingRow.shr x y
  | .subn x y => EncodingRow.subn x y
  | .shl x y => EncodingRow.shl x y
  | .sneReg x y => EncodingRow.sneReg x y
  | .ldI nnn => EncodingRow.ldI nnn
  | .jpV0 nnn => EncodingRow.jpV0 nnn
  | .rnd x nn => EncodingRow.rnd x nn
  | .drw x y n => EncodingRow.drw x y n
  | .skp x => EncodingRow.skp x
  | .sknp x => EncodingRow.sknp x
  | .ldVxDT x => EncodingRow.ldVxDT x
  | .ldVxK x => EncodingRow.ldVxK x
  | .ldDTVx x => EncodingRow.ldDTVx x
  | .ldSTVx x => EncodingRow.ldSTVx x
  | .addIVx x => EncodingRow.addIVx x
  | .ldFVx x => EncodingRow.ldFVx x
  | .ldBVx x => EncodingRow.ldBVx x
  | .ldMemVx x => EncodingRow.ldMemVx x
  | .ldVxMem x => EncodingRow.ldVxMem x

/-! What a match on a row's mask says of the fields that the decoder reads, one lemma for each of the four masks of R97. -/

theorem eq_of_match (h : w &&& 0xFFFF#16 = v) : w = v := by
  rw [← h]; exact (BitVec.and_allOnes (x := w)).symm

theorem match_family_iff : w &&& 0xF000#16 = v ↔ (fieldFamily w).toNat = v.toNat / 4096 ∧ v.toNat % 4096 = 0 := by
  rw [← BitVec.toNat_inj, and_family, fieldFamily_toNat]; omega

theorem match_familyLow4_iff : w &&& 0xF00F#16 = v ↔
    (fieldFamily w).toNat = v.toNat / 4096 ∧ (fieldN w).toNat = v.toNat % 16 ∧ v.toNat / 16 % 256 = 0 := by
  rw [← BitVec.toNat_inj, and_familyLow4, fieldFamily_toNat, fieldN_toNat]; omega

theorem match_familyLow8_iff : w &&& 0xF0FF#16 = v ↔
    (fieldFamily w).toNat = v.toNat / 4096 ∧ (fieldNN w).toNat = v.toNat % 256 ∧ v.toNat / 256 % 16 = 0 := by
  rw [← BitVec.toNat_inj, and_familyLow8, fieldFamily_toNat, fieldNN_toNat]; omega

/-- A word that a row of the map matches decodes to an instruction of the row's profile: the first two rows fix the whole word,
and each other row fixes the fields on which the decoder branches. -/
theorem decodeRow_of_row_matches {r : OpcodeRow} (hr : r ∈ opcodeTable) (h : w &&& r.mask = r.value) :
    ∃ i, decodeRow w = some i ∧ i.profile = r.profile := by
  fin_cases hr
  · exact ⟨.cls, by rw [eq_of_match h]; rfl, rfl⟩
  · exact ⟨.ret, by rw [eq_of_match h]; rfl, rfl⟩
  all_goals
    simp [match_family_iff, match_familyLow4_iff, match_familyLow8_iff] at h
    simp [decodeRow, decodeFamily8, decodeFamilyE, decodeFamilyF, h, ← BitVec.toNat_inj, Instr.profile]

/-- Two rows that agree on every bit that both fix are one row. -/
theorem eq_of_rows_agree : ∀ r₁ ∈ opcodeTable, ∀ r₂ ∈ opcodeTable,
    r₁.value &&& r₂.mask = r₂.value &&& r₁.mask → r₁ = r₂ := by decide

/-- Rows that match one word agree on every bit that both fix. -/
theorem rows_agree_of_match {r₁ r₂ : OpcodeRow} (h₁ : w &&& r₁.mask = r₁.value) (h₂ : w &&& r₂.mask = r₂.value) :
    r₁.value &&& r₂.mask = r₂.value &&& r₁.mask := by
  rw [← h₁, ← h₂, BitVec.and_assoc, BitVec.and_assoc, BitVec.and_comm r₁.mask]

/-! ### The illegal words -/

theorem wellFormed_full (i : Instr) : i.wellFormed .full = true := rfl

theorem wellFormed_base : i.wellFormed .base = true ↔ i.profile = .base := by
  cases hi : i.profile <;> simp [Instr.wellFormed, IsaProfile.admits, hi]

/-- A test on the word decides which of two rows has to be admitted. -/
theorem exists_ite_admitted {c : Prop} [Decidable c] {o : Option Instr} :
    (∃ i', (if c then some i else o) = some i' ∧ i'.wellFormed p = true) ↔
      if c then i.wellFormed p = true else ∃ i', o = some i' ∧ i'.wellFormed p = true := by
  split <;> simp

/-- Family 0x8: BASE admits the low nibbles 0 to 2, FULL all but those R98 lists. -/
theorem decodeFamily8_admitted {n : Nat} (hn : n < 16) : (∃ i, decodeFamily8 n x y = some i ∧ i.wellFormed p = true) ↔
    match p with
    | .base => n ≤ 2
    | .full => n ∉ [0x8, 0x9, 0xA, 0xB, 0xC, 0xD, 0xF] := by
  cases p <;> interval_cases n <;> simp [decodeFamily8, wellFormed_full, wellFormed_base, Instr.profile]

/-- Family 0xE: FULL alone admits the two low bytes of R97. -/
theorem decodeFamilyE_admitted {nn : Nat} : (∃ i, decodeFamilyE nn x = some i ∧ i.wellFormed p = true) ↔
    p = .full ∧ nn ∈ [0x9E, 0xA1] := by
  unfold decodeFamilyE
  cases p <;> split <;> simp_all [wellFormed_full, wellFormed_base, Instr.profile]

/-- Family 0xF: FULL alone admits the nine low bytes of R97. -/
theorem decodeFamilyF_admitted {nn : Nat} : (∃ i, decodeFamilyF nn x = some i ∧ i.wellFormed p = true) ↔
    p = .full ∧ nn ∈ [0x07, 0x0A, 0x15, 0x18, 0x1E, 0x29, 0x33, 0x55, 0x65] := by
  unfold decodeFamilyF
  cases p <;> split <;> simp_all [wellFormed_full, wellFormed_base, Instr.profile]

/-- An admitted row matches a word exactly when R98 does not list it, family by family. -/
theorem decodeRow_admitted_iff : (∃ i, decodeRow w = some i ∧ i.wellFormed p = true) ↔ ¬ listedIllegal p w := by
  simp only [listedIllegal, ← fieldFamily_toNat, ← fieldN_toNat, ← fieldNN_toNat]
  unfold decodeRow
  split
  case h_1 hf | h_6 hf | h_10 hf =>
    simp only [exists_ite_admitted, ← BitVec.toNat_inj]
    cases p <;> simp [hf, wellFormed_full, wellFormed_base, Instr.profile]
  case h_9 hf =>
    rw [decodeFamily8_admitted (fieldN w).isLt, hf]
    cases p <;> simp
  case h_15 hf =>
    rw [decodeFamilyE_admitted, hf]
    cases p <;> simp [Classical.or_iff_not_imp_left]
  case h_16 hf =>
    rw [decodeFamilyF_admitted, hf]
    cases p <;> simp [Classical.or_iff_not_imp_left]
  case h_17 =>
    have := (fieldFamily w).isLt
    simp only [imp_false] at *
    omega
  case h_2 hf | h_3 hf | h_4 hf | h_5 hf | h_7 hf | h_8 hf | h_11 hf | h_12 hf | h_13 hf | h_14 hf =>
    cases p <;> simp [hf, wellFormed_full, wellFormed_base, Instr.profile]

end

/-! ### The statements -/

/-- Settles O46: the row of the encoded word is the instruction, and its two bytes are the word. -/
theorem decodeOfEncodeIsInstruction : Obligations.DecodeOfEncodeIsInstruction :=
  fun _ _ hwf => ⟨decode_encode hwf, decodeBytes_encodeBytes hwf⟩

/-- Settles O47: the decoder reads every bit that the instruction's format writes, and tests the profile. -/
theorem encodeOfDecodeIsWord : Obligations.EncodeOfDecodeIsWord := by
  intro p w i h
  obtain ⟨hrow, hwf⟩ := decode_eq_instr h
  exact ⟨encode_of_decodeRow hrow, hwf⟩

/-- Settles O48: a word is illegal when no admitted row matches it, and those words are the listed ones. -/
theorem illegalWordsAreThoseListed : Obligations.IllegalWordsAreThoseListed := by
  intro p w
  rw [decode_illegal_iff, decodeRow_admitted_iff, not_not]

/-- The row of the instruction that a word decodes to is admitted and matches the word, because the word is the instruction's. -/
theorem row_of_decode {p : IsaProfile} {w : Word} {i : Instr} (h : decode p w = .instr i) :
    ∃ r ∈ opcodeTable, w &&& r.mask = r.value ∧ encode i &&& r.mask = r.value ∧ r.profile = i.profile ∧
      p.admits r.profile = true := by
  obtain ⟨hw, hwf⟩ := encodeOfDecodeIsWord p w i h
  obtain ⟨r, hr, hmatch, hprofile⟩ := encodingRow i
  exact ⟨r, hr, hw ▸ hmatch, hmatch, hprofile, hprofile ▸ hwf⟩

/-- Settles O49: a decoded word is its instruction's own, so that instruction's row matches it; a word that a row matches decodes
within the row's profile; and rows that match one word agree on every bit both fix, which no two rows of the map do. -/
theorem decodingIsExactAndRowsDisjoint : Obligations.DecodingIsExactAndRowsDisjoint := by
  refine ⟨fun p w => ⟨?_, ?_⟩, fun _ _ _ => row_of_decode, ?_⟩
  · rintro ⟨i, h⟩
    obtain ⟨r, hr, hmatch, -, -, hadmits⟩ := row_of_decode h
    exact ⟨r, hr, hmatch, hadmits⟩
  · rintro ⟨r, hr, hmatch, hadmits⟩
    obtain ⟨i, hrow, hprofile⟩ := decodeRow_of_row_matches hr hmatch
    exact ⟨i, decode_of_decodeRow hrow (by rwa [Instr.wellFormed, hprofile])⟩
  · exact fun r₁ hr₁ r₂ hr₂ w h₁ h₂ => eq_of_rows_agree r₁ hr₁ r₂ hr₂ (rows_agree_of_match h₁ h₂)

/-- Settles O45: the decoder runs on each of the eleven words. -/
theorem writtenOutWordsDecode : Obligations.WrittenOutWordsDecode := by
  unfold Obligations.WrittenOutWordsDecode
  decide

end Sys2Proof.Machine
end

section
/-! SUPPORT. The execution cycle (spec/40_execution_cycle.md): the tick that executes an instruction and the tick that polls the
keys as equations, what every tick leaves alone, what a tick that ends in a fault is, and the frames of the host's operations. -/

namespace Sys2Proof.Machine

section
variable {s t : State} {i : Instr}

/-! ### The tick as an equation -/

/-- A tick that executes an instruction is that instruction's meaning, with the timer decrement on what it answers (R120). -/
theorem step_of_executes (hx : Executes s i) : step s = thenTimers (exec i s) := by
  obtain ⟨running, awake, inRange, decoded⟩ := hx
  simp [step, tick, halted, running, coreStep, awake, fetchExecute, fetch_some inRange, decoded]

/-- A tick in a key-wait is the poll and the timer decrement (R122). -/
theorem step_of_waiting (running : s.fault.code = 0) (waiting : s.blockingInput = true) :
    step s = .next (decrementTimers (keyPoll s)) := by
  simp [step, tick, halted, running, coreStep, waiting, thenTimers]

/-! ### The key-wait poll -/

/-- With no key down the poll changes nothing (R127). -/
theorem keyPoll_of_no_key (h : ∀ k : KeyIdx, s.keys[k.val] = false) : keyPoll s = s := by
  rw [keyPoll, lowestKeyDown_none h]

/-- The smallest key down completes the wait (R127). -/
theorem keyPoll_of_smallest {k : KeyIdx} (hk : s.keys[k.val] = true) (h : ∀ j : KeyIdx, j < k → s.keys[j.val] = false) :
    keyPoll s = advance (leaveWait (setV s s.blockingTarget (BitVec.ofNat 8 k.val))) := by
  rw [keyPoll, lowestKeyDown_some k hk h]

/-- A completed wait changes the target register, the two elements of the wait and `pc` (R127). -/
theorem completedWait_frame (s : State) (b : Byte) :
    UnchangedExcept s (advance (leaveWait (setV s s.blockingTarget b)))
      (fun e => e = .v s.blockingTarget ∨ e = .blockingInput ∨ e = .blockingTarget ∨ e = .pc) := by
  intro e he
  cases e with
  | v k => simpa [Elem.same] using getV_setV_other s b (by simpa using he)
  | _ => simp [Elem.same] at he ⊢

/-! ### What every tick leaves alone -/

/-- What `exec_frame` says of an instruction, said of a tick: no key latch and no configuration changes, `redraw_pending` is not
cleared, and a timer that the tick's instruction does not write is decremented once (R125). -/
theorem step_frame (h : step s = .next t) :
    t.cfg = s.cfg ∧ t.keys = s.keys ∧
    ((∀ x, ¬ Executes s (.ldDTVx x)) → t.dt = decrementTimer s.dt) ∧
    ((∀ x, ¬ Executes s (.ldSTVx x)) → t.st = decrementTimer s.st) ∧
    (s.redrawPending = true → t.redrawPending = true) := by
  rcases step_cases h with ⟨-, rfl⟩ | ⟨-, -, rfl⟩ | ⟨-, -, -, rfl⟩ | ⟨-, -, -, -, ⟨-, rfl⟩ | ⟨-, rfl⟩⟩ | ⟨i, t', hx, he, rfl⟩
  · simp
  · obtain ⟨hdt, hst, hcfg, hkeys, hredraw, -⟩ := keyPoll_frame s
    simp [hdt, hst, hcfg, hkeys, hredraw]
  · simp
  · simp
  · simp
  · obtain ⟨hcfg, hkeys, -, hdt, hst, hredraw⟩ := exec_frame he
    refine ⟨hcfg, hkeys, fun hno => ?_, fun hno => ?_, hredraw⟩
    · exact congrArg decrementTimer (hdt fun x hi => hno x (hi ▸ hx))
    · exact congrArg decrementTimer (hst fun x hi => hno x (hi ▸ hx))

/-! ### The tick that ends in a fault -/

/-- An instruction that answers a next state either entered a fault from the state it started in, recording its own word, or
left the fault register alone (R121, R310). -/
theorem exec_takes_fault_or_keeps (h : exec i s = .next t) : (∃ f, t = takeFault f (encode i) s) ∨ t.fault = s.fault := by
  cases i with
  | ret | call =>
    simp only [exec, execRet, execCall, raise] at h
    split at h
    · cases h; exact .inl ⟨_, rfl⟩
    · split at h <;> cases h
      exact .inr rfl
  | skp | sknp | ldFVx | ldBVx | ldMemVx | ldVxMem | drw =>
    simp only [exec, execSkp, execSknp, execLdFVx, execLdBVx, execLdMemVx, execLdVxMem, execDrw, raise] at h
    split at h <;> cases h
    · exact .inl ⟨_, rfl⟩
    · exact .inr (by simp)
  | _ => cases h; exact .inr (by simp)

/-- A tick that takes the core into the halted state is a fault's entry at the start of the step, with the word fetched or, where
none was, 0x0000, and the timer decrement after it (R120, R121, R310). -/
theorem step_faulting (h : step s = .next t) (running : s.fault.code = 0) (faulted : t.fault.code ≠ 0) :
    ∃ f w, t = decrementTimers (takeFault f w s) ∧
      (s.pc.toNat ≤ 0xFFE → w = wordAt s s.pc.toNat) ∧ (0xFFF ≤ s.pc.toNat → w = 0x0000) := by
  rcases step_cases h with ⟨hf, -⟩ | ⟨-, -, rfl⟩ | ⟨-, -, hpc, rfl⟩ | ⟨-, -, hpc, -, ⟨-, rfl⟩ | ⟨-, rfl⟩⟩ |
    ⟨i, t', hx, he, rfl⟩
  · exact absurd running hf
  · obtain ⟨-, -, -, -, -, hfault, -⟩ := keyPoll_frame s
    simp [hfault, running] at faulted
  · exact ⟨_, _, rfl, fun _ => by omega, fun _ => rfl⟩
  · exact ⟨_, _, rfl, fun _ => rfl, fun _ => by omega⟩
  · simp [running] at faulted
  · obtain ⟨f, rfl⟩ | hkept := exec_takes_fault_or_keeps he
    · have hw : encode i = wordAt s s.pc.toNat := encode_of_decodeRow (decode_eq_instr hx.decoded).1
      have hpc := hx.inRange
      exact ⟨f, _, rfl, fun _ => hw, fun _ => by omega⟩
    · simp [hkept, running] at faulted

/-! ### The host's operations -/

/-- Bytes written one after another change those bytes of memory and nothing else (R69). -/
theorem writeBytes_frame (s : State) (a : Nat) (bs : List Byte) :
    UnchangedExcept s (writeBytes s a bs) (fun e => ∃ a', e = .mem a' ∧ a ≤ a' ∧ a' < a + bs.length) := by
  intro e he
  cases e with
  | mem a' =>
    have hout : ¬ (a ≤ a' ∧ a' - a < bs.length) := fun ⟨hlo, hhi⟩ => he ⟨a', rfl, hlo, by omega⟩
    rw [Elem.same, readByte_writeBytes, dif_neg hout]
  | _ => simp [Elem.same]

/-- A key write changes that key's latch and nothing else (R137). -/
theorem setKey_frame (k : KeyIdx) (b : Bool) (s : State) : UnchangedExcept s (setKey k b s) (fun e => e = .keys k) := by
  intro e he
  cases e with
  | keys j =>
    have hne : k.val ≠ j.val := fun hv => he (by rw [Fin.ext hv])
    simp [Elem.same, Vector.getElem_set_ne, hne]
  | _ => simp [Elem.same]

/-- A redraw acknowledge changes `redraw_pending` and nothing else (R138). -/
theorem ackRedraw_frame (s : State) : UnchangedExcept s (ackRedraw s) (fun e => e = .redrawPending) := by
  intro e he
  cases e <;> simp [Elem.same] at he ⊢

/-- A load writes inside the program window alone, above the low memory that the invariant speaks of (R136). -/
theorem CoreInv.after_loadImage (h : CoreInv s) (image : Image) : CoreInv (loadImage image s).2 := by
  cases image with
  | unreadable => exact h
  | bytes b =>
    have hfits : programBase + (b.take maxProgram).length ≤ memSize := by
      simp only [List.length_take, programBase, maxProgram, memSize]; omega
    exact h.after_writeBytes _ le_rfl hfits

theorem CoreInv.after_setKey (h : CoreInv s) (k : KeyIdx) (b : Bool) : CoreInv (setKey k b s) := { h with }

theorem CoreInv.after_ackRedraw (h : CoreInv s) : CoreInv (ackRedraw s) := { h with }

end

/-! ### The statements -/

/-- Settles O57: the tick keeps the invariant as O56 says, a reset establishes it, a load stays above the low memory, and the
other two events write elements that the invariant does not speak of. -/
theorem hostEventsKeepInvariant : Obligations.HostEventsKeepInvariant := by
  intro e s h
  cases e with
  | tick => exact stepAdvancesAndKeepsInvariant s h
  | reset => exact ⟨_, rfl, coreInv_fresh s.cfg s.draws⟩
  | load image => exact ⟨_, rfl, h.after_loadImage image⟩
  | setKey k b => exact ⟨_, rfl, h.after_setKey k b⟩
  | ackRedraw => exact ⟨_, rfl, h.after_ackRedraw⟩

/-- Settles O41: a timer that the tick's instruction does not write keeps its value up to the decrement, and where Fx15 or Fx18 is
executed the tick is that write and the decrement. -/
theorem everyTickDecrementsTimers : Obligations.EveryTickDecrementsTimers := by
  intro s t h
  obtain ⟨-, -, hdt, hst, -⟩ := step_frame h
  refine ⟨fun hno => ?_, fun hno => ?_, fun x hx => ?_, fun x hx => ?_⟩
  · rw [hdt hno, decrementTimer_toNat]
  · rw [hst hno, decrementTimer_toNat]
  · cases (step_of_executes hx).symm.trans h
    exact decrementTimer_toNat (getV s x)
  · cases (step_of_executes hx).symm.trans h
    exact decrementTimer_toNat (getV s x)

/-- Settles O42: the tick is the poll, which the key search decides, and the timer decrement. -/
theorem keyPollTakesSmallestKeyDown : Obligations.KeyPollTakesSmallestKeyDown := by
  intro s running waiting
  refine ⟨fun hnone => ?_, fun k hk hsmallest => ?_⟩
  · refine ⟨_, step_of_waiting running waiting, ?_⟩
    rw [keyPoll_of_no_key hnone]
    exact unchangedExcept_decrementTimers s
  · refine ⟨_, step_of_waiting running waiting, ?_⟩
    rw [keyPoll_of_smallest hk hsmallest]
    refine ⟨?_, rfl, rfl, rfl, ?_⟩
    · simp; omega
    · simpa only [or_assoc] using (completedWait_frame s _).then_decrementTimers

/-- Settles O44: such a tick is a fault's entry at the start of the step and the timer decrement. -/
theorem faultingStepIsPrecise : Obligations.FaultingStepIsPrecise := by
  intro s t h running faulted
  obtain ⟨f, w, rfl, hword, hnone⟩ := step_faulting h running faulted
  exact ⟨(takeFault_enters f w s).2.then_decrementTimers, rfl, hword, hnone, decrementTimer_toNat s.dt,
    decrementTimer_toNat s.st⟩

/-- Settles O51: a load writes the first `m` bytes of the image one after another from 0x200. -/
theorem loadWritesOnlyTheProgramWindow : Obligations.LoadWritesOnlyTheProgramWindow := by
  intro s
  refine ⟨rfl, fun b m hm => ?_⟩
  have hlen : (b.take maxProgram).length = m := by rw [List.length_take, hm, min_comm]; rfl
  refine ⟨writeBytes s programBase (b.take maxProgram), by rw [hm]; rfl, fun k hk hkm => ?_, ?_⟩
  · have hin : programBase ≤ 0x200 + k ∧ 0x200 + k - programBase < (b.take maxProgram).length := by
      rw [hlen, programBase]; omega
    rw [readByte_writeBytes, dif_pos hin]
    simp [programBase]
  · exact hlen ▸ writeBytes_frame s programBase (b.take maxProgram)

/-- Settles O52: each operation writes its one element, and no step writes a key latch or the configuration. -/
theorem hostWritesKeysAndClearsRedraw : Obligations.HostWritesKeysAndClearsRedraw := by
  refine ⟨fun k b s => ⟨by simp, setKey_frame k b s⟩, fun s => ⟨rfl, ackRedraw_frame s⟩, fun s t h => ?_⟩
  obtain ⟨hcfg, hkeys, -, -, hredraw⟩ := step_frame h
  exact ⟨hkeys, hcfg, hredraw⟩

/-- Settles O37: the tick is the instruction's meaning under `thenTimers`, which decrements after a next state and passes a stop
on. -/
theorem stepRunsDecodedInstruction : Obligations.StepRunsDecodedInstruction := by
  intro s i hx
  rw [step_of_executes hx]
  refine ⟨fun t he => ?_, fun f he => ?_⟩ <;> rw [he, thenTimers]

end Sys2Proof.Machine
end

section
/-! SUPPORT. The display (spec/41_display.md): which instructions are rows of both profiles, and what replacing the display and
advancing leaves alone. -/

namespace Sys2Proof.Machine

section
variable {i : Instr}

/-- An instruction of the BASE profile is admitted under both profiles. -/
theorem wellFormed_of_profile_base (hi : i.profile = .base) : ∀ p, i.wellFormed p = true
  | .base => wellFormed_base.mpr hi
  | .full => wellFormed_full i

/-- An instruction of the BASE profile is the BASE row of its own word (R97). -/
theorem baseRow_of_profile (hi : i.profile = .base) {w : Nat} (hw : (encode i).toNat = w) : BaseRow i w :=
  ⟨hw, fun p => decode_encode (wellFormed_of_profile_base hi p)⟩

/-- A new display after the advance changes the cells, `redraw_pending` and `pc`. -/
theorem advance_setDisplay_frame (s : State) (d : Display) :
    UnchangedExcept s (setDisplay (advance s) d) (fun e => e = .pc ∨ e = .redrawPending ∨ ∃ x y, e = .disp x y) := by
  intro e he
  cases e with
  | disp x y => exact absurd (.inr (.inr ⟨x, y, rfl⟩)) he
  | _ => simp [Elem.same] at he ⊢

end

/-! ### The statement -/

/-- Settles O1: CLS advances and makes the blank display the state's display, whose every cell is 0. -/
theorem clsClearsDisplayAndMarksRedraw : Obligations.ClsClearsDisplayAndMarksRedraw :=
  ⟨baseRow_of_profile rfl rfl, fun s =>
    ⟨setDisplay (advance s) blankDisplay, rfl, getPixel_blankDisplay, rfl, rfl, advance_setDisplay_frame s blankDisplay⟩⟩

end Sys2Proof.Machine
end

section
/-! SUPPORT. Control transfer and skips (spec/42_control.md): the advance followed by a jump or a skip, what the stack operations
leave alone, and the executions of RET and CALL in the states that R28 allows. -/

namespace Sys2Proof.Machine

section
variable {s : State}

/-! ### Jumps and skips -/

/-- A jump after the advance changes `pc` alone. -/
theorem advance_jumpTo_frame (s : State) (target : Word) :
    UnchangedExcept s (jumpTo (advance s) target) (fun e => e = .pc) := by
  intro e he
  cases e <;> simp [Elem.same] at he ⊢

/-- A skip after the advance changes `pc` alone (R128). -/
theorem advance_skipIf_frame (c : Bool) (s : State) : UnchangedExcept s (skipIf c (advance s)) (fun e => e = .pc) := by
  intro e he
  cases e <;> simp [Elem.same] at he ⊢

/-- A skip after the advance leads to `A + 4`, and the advance alone to `A + 2` (R128). -/
theorem advance_skipIf_pc (c : Bool) (s : State) : (skipIf c (advance s)).pc = if c then s.pc + 4 else s.pc + 2 := by
  cases c with
  | false => rfl
  | true => exact BitVec.add_assoc s.pc 2 2

/-- Of a skip and the skip on the complement, exactly one leads to `A + 4`. -/
theorem advance_skipIf_not_pc (c : Bool) (s : State) :
    (skipIf (!c) (advance s)).pc = s.pc + 4 ↔ ¬ (skipIf c (advance s)).pc = s.pc + 4 := by
  simp only [advance_skipIf_pc]
  cases c <;> simp

/-! ### The call stack -/

/-- The entry at an index of the stack. -/
theorem stackEntry_eq (s : State) (k : Fin 16) : stackEntry s k.val = s.stack[k.val] := by
  simp [stackEntry]

/-- A pop and a jump after the advance change `sp` and `pc`: the popped entry keeps its value (R27). -/
theorem advance_popSp_jumpTo_frame (s : State) (target : Word) :
    UnchangedExcept s (jumpTo (popSp (advance s)) target) (fun e => e = .pc ∨ e = .sp) := by
  intro e he
  cases e <;> simp [Elem.same] at he ⊢

/-- A push and a jump after the advance change the entry at `sp`, `sp` and `pc`. -/
theorem advance_pushReturn_jumpTo_frame {k : Fin 16} (hk : s.sp.toNat = k.val) (ret target : Word) :
    UnchangedExcept s (jumpTo (pushReturn (advance s) ret) target) (fun e => e = .pc ∨ e = .sp ∨ e = .stack k) := by
  intro e he
  cases e with
  | stack j =>
    have hne : k.val ≠ j.val := fun hv => he (.inr (.inr (by rw [Fin.ext hv])))
    simp [Elem.same, hk, hne]
  | _ => simp [Elem.same] at he ⊢

/-- RET on an empty stack enters the fault (R160). -/
theorem exec_ret_of_empty (h : s.sp = 0) : exec .ret s = .next (takeFault .stackUnderflow (encode .ret) s) := by
  simp [exec, execRet, raise, h]

/-- RET on a stack of `k + 1` entries pops entry `k` (R160). -/
theorem exec_ret_of_nonempty {k : Fin 16} (hk : s.sp.toNat = k.val + 1) :
    exec .ret s = .next (jumpTo (popSp (advance s)) s.stack[k.val]) := by
  have hne : s.sp ≠ 0 := fun h0 => by simp [h0] at hk
  have hle : ¬ 16 < s.sp.toNat := by omega
  simp only [exec, execRet, hne, hle, if_false]
  rw [hk, Nat.add_sub_cancel, stackEntry_eq]

/-- CALL on a full stack enters the fault (R162). -/
theorem exec_call_of_full (h : s.sp = 16) (nnn : Addr12) :
    exec (.call nnn) s = .next (takeFault .stackOverflow (encode (.call nnn)) s) := by
  simp [exec, execCall, raise, h]

/-- CALL on a stack with room pushes `A + 2` (R162). -/
theorem exec_call_of_room (h : s.sp.toNat < 16) (nnn : Addr12) :
    exec (.call nnn) s = .next (jumpTo (pushReturn (advance s) (s.pc + 2)) (zextAddr nnn)) := by
  have hne : s.sp ≠ 16 := fun h16 => by simp [h16] at h
  have hle : ¬ 16 < s.sp.toNat := by omega
  simp only [exec, execCall, hne, hle, if_false, advance_pc]

end

/-! ### The statements -/

/-- Settles O7: an empty stack is the fault's entry, and on any other the popped entry becomes `pc`. -/
theorem retPopsReturnAddress : Obligations.RetPopsReturnAddress := by
  refine ⟨baseRow_of_profile rfl rfl, fun s => ⟨fun h0 => ?_, fun k hk => ?_⟩⟩
  · exact ⟨_, exec_ret_of_empty h0, takeFault_enters .stackUnderflow (encode .ret) s⟩
  · refine ⟨_, exec_ret_of_nonempty hk, ?_, rfl, advance_popSp_jumpTo_frame s _⟩
    simp only [jumpTo_sp, popSp_sp, advance_sp]
    bv_omega

/-- Settles O8: the jump replaces the advanced `pc` by the zero-extended address. -/
theorem jpSetsPc : Obligations.JpSetsPc :=
  fun nnn => ⟨baseRow_of_profile rfl (fmtAddr_toNat 1 nnn), fun s =>
    ⟨_, rfl, zextAddr_toNat nnn, advance_jumpTo_frame s (zextAddr nnn)⟩⟩

/-- Settles O9: a full stack is the fault's entry, and on any other the advanced `pc` goes to the entry at `sp`. -/
theorem callPushesReturnAddress : Obligations.CallPushesReturnAddress := by
  refine fun nnn => ⟨baseRow_of_profile rfl (fmtAddr_toNat 2 nnn), fun s => ⟨fun h16 => ?_, fun k hk => ?_⟩⟩
  · exact ⟨_, exec_call_of_full h16 nnn, takeFault_enters .stackOverflow (encode (.call nnn)) s⟩
  · have hroom : s.sp.toNat < 16 := by omega
    refine ⟨_, exec_call_of_room hroom nnn, ?_, ?_, zextAddr_toNat nnn, advance_pushReturn_jumpTo_frame hk _ _⟩
    · simp [hk]
    · simp only [jumpTo_sp, pushReturn_sp, advance_sp]
      bv_omega

/-- Settles O11: SE is the skip on equality. -/
theorem seImmSkipsWhenEqual : Obligations.SeImmSkipsWhenEqual :=
  fun x nn => ⟨baseRow_of_profile rfl (fmtRegImm_toNat 3 x nn), fun s =>
    ⟨_, rfl, by rw [advance_skipIf_pc]; simp, advance_skipIf_frame _ s⟩⟩

/-- Settles O12: SNE is the skip on the complement of SE's condition. -/
theorem sneImmSkipsWhenDifferent : Obligations.SneImmSkipsWhenDifferent := by
  refine fun x nn => ⟨baseRow_of_profile rfl (fmtRegImm_toNat 4 x nn), fun s =>
    ⟨_, rfl, by rw [advance_skipIf_pc]; simp, advance_skipIf_frame _ s, fun u hu => ?_⟩⟩
  cases hu
  exact advance_skipIf_not_pc (getV s x == nn) s

/-- Settles O13: SE is the skip on equality, and R98 lists the words of family 5 with a low nibble other than 0. -/
theorem seRegSkipsWhenEqual : Obligations.SeRegSkipsWhenEqual := by
  refine fun x y => ⟨baseRow_of_profile rfl (fmtRegReg_toNat 5 x y 0), fun w hfamily hn p => ?_, fun s => ?_⟩
  · rw [illegalWordsAreThoseListed]
    cases p <;> simp [listedIllegal, hfamily, hn]
  · exact ⟨_, rfl, by rw [advance_skipIf_pc]; simp, advance_skipIf_frame _ s⟩

end Sys2Proof.Machine
end

section
/-! SUPPORT. Register loads and the BASE ALU (spec/43_alu.md): the advance followed by one register's write, and the words of
family 8. -/

namespace Sys2Proof.Machine

/-- The word `8xyN` as a number (R97). -/
theorem fmtRegReg_family8_toNat (x y : RegIdx) (low : BitVec 4) :
    (fmtRegReg 0x8 x y low).toNat = 0x8000 + low.toNat + 256 * x.val + 16 * y.val := by
  have hword : (fmtRegReg 0x8 x y low).toNat = 0x8000 + 256 * x.val + 16 * y.val + low.toNat := fmtRegReg_toNat 0x8 x y low
  omega

/-- A register's write after the advance changes that register and `pc`; `VF` is no exception (R22). -/
theorem advance_setV_frame (s : State) (x : RegIdx) (b : Byte) :
    UnchangedExcept s (setV (advance s) x b) (fun e => e = .pc ∨ e = .v x) := by
  intro e he
  cases e with
  | v k =>
    have hne : k ≠ x := fun hk => he (.inr (by rw [hk]))
    exact getV_setV_other (advance s) b hne
  | _ => simp [Elem.same] at he ⊢

/-! ### The statements -/

/-- Settles O2: the immediate itself is the byte written after the advance. -/
theorem ldImmLoadsImmediate : Obligations.LdImmLoadsImmediate :=
  fun x nn => ⟨baseRow_of_profile rfl (fmtRegImm_toNat 6 x nn), fun s =>
    ⟨_, rfl, getV_setV_same (advance s) x nn, rfl, advance_setV_frame s x nn⟩⟩

/-- Settles O3: the byte written is the sum of two bytes, whose number is the sum modulo 256. -/
theorem addImmWrapsWithoutCarry : Obligations.AddImmWrapsWithoutCarry :=
  fun x nn => ⟨baseRow_of_profile rfl (fmtRegImm_toNat 7 x nn), fun s =>
    ⟨_, rfl, by rw [getV_setV_same]; exact BitVec.toNat_add (getV s x) nn, rfl, advance_setV_frame s x _⟩⟩

/-- Settles O4: the byte written is the one that `V[y]` held before the step. -/
theorem ldRegCopiesRegister : Obligations.LdRegCopiesRegister :=
  fun x y => ⟨baseRow_of_profile rfl (fmtRegReg_family8_toNat x y 0), fun s =>
    ⟨_, rfl, getV_setV_same (advance s) x (getV s y), rfl, advance_setV_frame s x (getV s y)⟩⟩

/-- Settles O5: each bit of the byte written is the or of the operands' bits. -/
theorem orRegWritesBitwiseOr : Obligations.OrRegWritesBitwiseOr :=
  fun x y => ⟨baseRow_of_profile rfl (fmtRegReg_family8_toNat x y 1), fun s =>
    ⟨_, rfl, fun _ _ => by rw [getV_setV_same]; exact BitVec.getLsbD_or, rfl, advance_setV_frame s x _⟩⟩

/-- Settles O6: each bit of the byte written is the and of the operands' bits. -/
theorem andRegWritesBitwiseAnd : Obligations.AndRegWritesBitwiseAnd :=
  fun x y => ⟨baseRow_of_profile rfl (fmtRegReg_family8_toNat x y 2), fun s =>
    ⟨_, rfl, fun _ _ => by rw [getV_setV_same]; exact BitVec.getLsbD_and, rfl, advance_setV_frame s x _⟩⟩

end Sys2Proof.Machine
end

section
/-! SUPPORT. The FULL ALU (spec/44_ext_alu.md): the rows of the FULL profile alone, and the one outcome of every operation that
writes its result and then its flag (R200). -/

namespace Sys2Proof.Machine

section
variable {i : Instr}

/-- Under BASE the word of an instruction of the FULL profile is illegal (R98): the one row it matches is not admitted. -/
theorem decode_base_encode_of_profile_full (hi : i.profile = .full) : decode .base (encode i) = .illegal (encode i) := by
  rw [decode_illegal_iff]
  rintro ⟨j, hrow, hwf⟩
  obtain rfl : i = j := Option.some.inj ((decodeRow_encode i).symm.trans hrow)
  have hbase : i.profile = .base := wellFormed_base.mp hwf
  simp [hi] at hbase

/-- An instruction of the FULL profile is the FULL row of its own word (R97). -/
theorem fullRow_of_profile (hi : i.profile = .full) {w : Nat} (hw : (encode i).toNat = w) : FullRow i w :=
  ⟨hw, decode_encode (wellFormed_full i), decode_base_encode_of_profile_full hi⟩

end

/-! ### The result, then the flag -/

/-- A result and a flag written after the advance change `V[x]`, `VF` and `pc`. -/
theorem advance_setResultThenFlag_frame (s : State) (x : RegIdx) (r f : Byte) :
    UnchangedExcept s (setResultThenFlag (advance s) x r f) (fun e => e = .pc ∨ e = .v x ∨ e = .v 0xF) := by
  intro e he
  cases e with
  | v k =>
    have hx : k ≠ x := fun hk => he (.inr (.inl (by rw [hk])))
    have hflag : k ≠ 0xF := fun hk => he (.inr (.inr (by rw [hk])))
    rw [Elem.same, getV_setResultThenFlag, if_neg hflag, if_neg hx, getV_advance]
  | _ => simp [Elem.same] at he ⊢

/-- What R200's order leaves: the result in `V[x]` unless that is `VF`, the flag in `VF` always, and the advance. -/
theorem advance_setResultThenFlag_outcome (s : State) (x : RegIdx) (r f : Byte) :
    (x ≠ 0xF → getV (setResultThenFlag (advance s) x r f) x = r) ∧
    getV (setResultThenFlag (advance s) x r f) 0xF = f ∧
    (setResultThenFlag (advance s) x r f).pc = s.pc + 2 ∧
    UnchangedExcept s (setResultThenFlag (advance s) x r f) (fun e => e = .pc ∨ e = .v x ∨ e = .v 0xF) := by
  refine ⟨fun hx => ?_, ?_, rfl, advance_setResultThenFlag_frame s x r f⟩
  · rw [getV_setResultThenFlag, if_neg hx, if_pos rfl]
  · rw [getV_setResultThenFlag, if_pos rfl]

/-! ### Flags, differences and shifts as numbers -/

theorem carryFlag_eq (a b : Byte) : carryFlag a b = if 255 < a.toNat + b.toNat then 1 else 0 := by
  simp [carryFlag, flagByte]

theorem noBorrowFlag_eq (a b : Byte) : noBorrowFlag a b = if b.toNat ≤ a.toNat then 1 else 0 := by
  simp [noBorrowFlag, flagByte]

/-- The difference of bytes, in the form of R203: 256 is added before the subtraction. -/
theorem byte_sub_toNat (a b : Byte) : (a - b).toNat = (a.toNat + 256 - b.toNat) % 256 := by
  have := b.isLt
  rw [BitVec.toNat_sub]
  congr 1
  omega

theorem byte_shiftRight_one_toNat (b : Byte) : (b >>> 1).toNat = b.toNat / 2 := by
  rw [BitVec.toNat_ushiftRight, Nat.shiftRight_eq_div_pow, pow_one]

theorem byte_shiftLeft_one_toNat (b : Byte) : (b <<< 1).toNat = b.toNat * 2 % 256 := by
  rw [BitVec.toNat_shiftLeft, Nat.shiftLeft_eq, pow_one]

/-- The byte that each value of `SHIFT_SOURCE` names is the shift's operand. -/
theorem shiftOperand_eq {s : State} {x y : RegIdx} {source : Byte} (hvy : s.cfg.shiftSource = .vy → source = getV s y)
    (hvx : s.cfg.shiftSource = .vx → source = getV s x) : shiftOperand s x y = source := by
  cases h : s.cfg.shiftSource with
  | vy => rw [shiftOperand_vy h, hvy h]
  | vx => rw [shiftOperand_vx h, hvx h]

/-! ### The statements -/

/-- Settles O14: each bit of the byte written is the exclusive or of the operands' bits. -/
theorem xorRegWritesBitwiseXor : Obligations.XorRegWritesBitwiseXor :=
  fun x y => ⟨fullRow_of_profile rfl (fmtRegReg_family8_toNat x y 3), fun s =>
    ⟨_, rfl, fun _ _ => by rw [getV_setV_same]; exact BitVec.getLsbD_xor, rfl, advance_setV_frame s x _⟩⟩

/-- Settles O15: the result is the sum of two bytes, the flag the comparison of their sum as numbers with 255. -/
theorem addRegWritesSumThenCarry : Obligations.AddRegWritesSumThenCarry := by
  refine fun x y => ⟨fullRow_of_profile rfl (fmtRegReg_family8_toNat x y 4), fun s => ?_⟩
  obtain ⟨hresult, hflag, hpc, hframe⟩ :=
    advance_setResultThenFlag_outcome s x (getV s x + getV s y) (carryFlag (getV s x) (getV s y))
  exact ⟨_, rfl, fun hx => by rw [hresult hx]; exact BitVec.toNat_add _ _, hflag.trans (carryFlag_eq _ _), hpc, hframe⟩

/-- Settles O16: the result is the difference of two bytes, the flag their comparison. -/
theorem subRegWritesDifferenceThenNotBorrow : Obligations.SubRegWritesDifferenceThenNotBorrow := by
  refine fun x y => ⟨fullRow_of_profile rfl (fmtRegReg_family8_toNat x y 5), fun s => ?_⟩
  obtain ⟨hresult, hflag, hpc, hframe⟩ :=
    advance_setResultThenFlag_outcome s x (getV s x - getV s y) (noBorrowFlag (getV s x) (getV s y))
  exact ⟨_, rfl, fun hx => by rw [hresult hx, byte_sub_toNat], hflag.trans (noBorrowFlag_eq _ _), hpc, hframe⟩

/-- Settles O17: the result is half of the shift's operand, the flag its parity. -/
theorem shrWritesHalfThenShiftedOutBit : Obligations.ShrWritesHalfThenShiftedOutBit := by
  refine fun x y => ⟨fullRow_of_profile rfl (fmtRegReg_family8_toNat x y 6), fun s source hvy hvx => ?_⟩
  obtain rfl := shiftOperand_eq hvy hvx
  obtain ⟨hresult, hflag, hpc, hframe⟩ :=
    advance_setResultThenFlag_outcome s x (shiftOperand s x y >>> 1) (shiftRightFlag (shiftOperand s x y))
  exact ⟨_, rfl, fun hx => by rw [hresult hx, byte_shiftRight_one_toNat], by rw [hflag, shiftRightFlag_toNat], hpc, hframe⟩

/-- Settles O18: as SUB, with the operands exchanged in the result and in the flag. -/
theorem subnWritesReverseDifferenceThenNotBorrow : Obligations.SubnWritesReverseDifferenceThenNotBorrow := by
  refine fun x y => ⟨fullRow_of_profile rfl (fmtRegReg_family8_toNat x y 7), fun s => ?_⟩
  obtain ⟨hresult, hflag, hpc, hframe⟩ :=
    advance_setResultThenFlag_outcome s x (getV s y - getV s x) (noBorrowFlag (getV s y) (getV s x))
  exact ⟨_, rfl, fun hx => by rw [hresult hx, byte_sub_toNat], hflag.trans (noBorrowFlag_eq _ _), hpc, hframe⟩

/-- Settles O19: the result is the double of the shift's operand modulo 256, the flag its top bit. -/
theorem shlWritesDoubleThenShiftedOutBit : Obligations.ShlWritesDoubleThenShiftedOutBit := by
  refine fun x y => ⟨fullRow_of_profile rfl (fmtRegReg_family8_toNat x y 0xE), fun s source hvy hvx => ?_⟩
  obtain rfl := shiftOperand_eq hvy hvx
  obtain ⟨hresult, hflag, hpc, hframe⟩ :=
    advance_setResultThenFlag_outcome s x (shiftOperand s x y <<< 1) (shiftLeftFlag (shiftOperand s x y))
  exact ⟨_, rfl, fun hx => by rw [hresult hx, byte_shiftLeft_one_toNat], by rw [hflag, shiftLeftFlag_toNat], hpc, hframe⟩

end Sys2Proof.Machine
end

section
/-! SUPPORT. Skips and jumps of the FULL profile (spec/45_ext_control.md): the jump's offset register, and the two key skips on a
value that names a key and on one that names none (R221). -/

namespace Sys2Proof.Machine

section
variable {s : State} {x : RegIdx}

/-! ### The jump with an offset -/

/-- The register that each value of `JUMP_OFFSET_REG` names holds the jump's offset. -/
theorem jumpOffset_eq {nnn : Addr12} {r : RegIdx} (hv0 : s.cfg.jumpOffsetReg = .v0 → r = 0)
    (hvx : s.cfg.jumpOffsetReg = .vx → r.val = nnn.toNat / 256) : jumpOffset s nnn = getV s r := by
  cases h : s.cfg.jumpOffsetReg with
  | v0 => rw [jumpOffset_v0 h, hv0 h]
  | vx =>
    have hr : r = addrHighNibble nnn := Fin.ext ((hvx h).trans (addrHighNibble_val nnn).symm)
    rw [jumpOffset_vx h, hr]

/-- An address and an offset byte sum to at most 0x10FE, so 16 bits hold the sum unreduced (R222). -/
theorem zextAddr_add_zextByte_toNat (nnn : Addr12) (b : Byte) :
    (zextAddr nnn + zextByte b).toNat = nnn.toNat + b.toNat := by
  rw [BitVec.toNat_add, zextAddr_toNat, zextByte_toNat]
  omega

/-! ### The key skips -/

/-- The word `ExNN` as a number (R97). -/
theorem fmtReg_familyE_toNat (x : RegIdx) (ff : Byte) : (fmtReg 0xE x ff).toNat = 0xE000 + ff.toNat + 256 * x.val := by
  have hword : (fmtReg 0xE x ff).toNat = 0xE000 + 256 * x.val + ff.toNat := fmtReg_toNat 0xE x ff
  omega

/-- SKP on a value that names no key enters the fault (R221, R223). -/
theorem exec_skp_of_no_key (h : 0x0F < (getV s x).toNat) :
    exec (.skp x) s = .next (takeFault .operandOutOfRange (encode (.skp x)) s) := by
  rw [exec, execSkp, indexOperand_none h, raise]

/-- SKP on a value that names a key skips on that key's latch (R223). -/
theorem exec_skp_of_key {k : KeyIdx} (h : (getV s x).toNat = k.val) :
    exec (.skp x) s = .next (skipIf s.keys[k.val] (advance s)) := by
  rw [exec, execSkp, indexOperand_some h]

/-- SKNP on a value that names no key enters the fault (R221, R224). -/
theorem exec_sknp_of_no_key (h : 0x0F < (getV s x).toNat) :
    exec (.sknp x) s = .next (takeFault .operandOutOfRange (encode (.sknp x)) s) := by
  rw [exec, execSknp, indexOperand_none h, raise]

/-- SKNP on a value that names a key skips on the complement of that key's latch (R224). -/
theorem exec_sknp_of_key {k : KeyIdx} (h : (getV s x).toNat = k.val) :
    exec (.sknp x) s = .next (skipIf (!s.keys[k.val]) (advance s)) := by
  rw [exec, execSknp, indexOperand_some h]

end

/-! ### The statements -/

/-- Settles O20: SNE is the skip on the complement of SE's condition, and R98 lists the words of family 9 with a low nibble other
than 0. -/
theorem sneRegSkipsWhenDifferent : Obligations.SneRegSkipsWhenDifferent := by
  refine fun x y => ⟨fullRow_of_profile rfl (fmtRegReg_toNat 9 x y 0), fun w hfamily hn p => ?_, fun s =>
    ⟨_, rfl, by rw [advance_skipIf_pc]; simp, advance_skipIf_frame _ s, fun u hu => ?_⟩⟩
  · rw [illegalWordsAreThoseListed]
    cases p <;> simp [listedIllegal, hfamily, hn]
  · cases hu
    exact advance_skipIf_not_pc (getV s x == getV s y) s

/-- Settles O21: the jump replaces the advanced `pc` by a sum that 16 bits hold. -/
theorem jpV0AddsOffsetRegister : Obligations.JpV0AddsOffsetRegister := by
  refine fun nnn => ⟨fullRow_of_profile rfl (fmtAddr_toNat 0xB nnn), fun s r hv0 hvx => ?_⟩
  refine ⟨_, rfl, ?_, advance_jumpTo_frame s _⟩
  rw [jumpTo_pc, zextAddr_add_zextByte_toNat, jumpOffset_eq hv0 hvx]

/-- Settles O22: above 0x0F the step is the fault's entry, and otherwise the skip on the key's latch. -/
theorem skpSkipsWhenKeyDown : Obligations.SkpSkipsWhenKeyDown := by
  refine fun x => ⟨fullRow_of_profile rfl (fmtReg_familyE_toNat x 0x9E), fun s => ⟨fun hhigh => ?_, fun k hk => ?_⟩⟩
  · exact ⟨_, exec_skp_of_no_key hhigh, takeFault_enters .operandOutOfRange (encode (.skp x)) s⟩
  · exact ⟨_, exec_skp_of_key hk, advance_skipIf_pc _ s, advance_skipIf_frame _ s⟩

/-- Settles O23: above 0x0F the step is the fault's entry, and otherwise the skip on the complement of the key's latch. -/
theorem sknpSkipsWhenKeyUp : Obligations.SknpSkipsWhenKeyUp := by
  refine fun x => ⟨fullRow_of_profile rfl (fmtReg_familyE_toNat x 0xA1), fun s => ⟨fun hhigh => ?_, fun k hk => ?_⟩⟩
  · exact ⟨_, exec_sknp_of_no_key hhigh, takeFault_enters .operandOutOfRange (encode (.sknp x)) s⟩
  · refine ⟨_, exec_sknp_of_key hk, ?_, advance_skipIf_frame _ s⟩
    rw [advance_skipIf_pc]
    cases s.keys[k.val] <;> rfl

end Sys2Proof.Machine
end

section
/-! SUPPORT. The index register and memory (spec/46_ext_index_memory.md): frames that compose along a sequence of operations, the
address checks in the three ranges of `I`, and what the stores and loads leave in memory and in the registers. -/

namespace Sys2Proof.Machine

section
variable {s t u : State} {x : RegIdx} {f : CoreFault} {a n : Nat}

/-! ### Frames of operations one after another -/

/-- Two changes in a row write at most what either of them may write. -/
theorem UnchangedExcept.trans {w₁ w₂ : Elem → Prop} (h₁ : UnchangedExcept s t w₁) (h₂ : UnchangedExcept t u w₂) :
    UnchangedExcept s u (fun e => w₁ e ∨ w₂ e) := by
  intro e he
  obtain ⟨hfirst, hsecond⟩ := not_or.mp he
  exact Elem.same_trans (h₁ e hfirst) (h₂ e hsecond)

/-- A frame holds of any larger set of elements. -/
theorem UnchangedExcept.mono {w₁ w₂ : Elem → Prop} (h : UnchangedExcept s t w₁) (hsub : ∀ e, w₁ e → w₂ e) :
    UnchangedExcept s t w₂ :=
  fun e he => h e (mt (hsub e) he)

theorem advance_frame (s : State) : UnchangedExcept s (advance s) (fun e => e = .pc) := by
  intro e he
  cases e <;> simp [Elem.same] at he ⊢

theorem setI_frame (s : State) (w : Word) : UnchangedExcept s (setI s w) (fun e => e = .i) := by
  intro e he
  cases e <;> simp [Elem.same] at he ⊢

/-- The loads write the registers of their list and nothing else (R245). -/
theorem loadRegs_frame (s : State) (base : Nat) (ks : List RegIdx) :
    UnchangedExcept s (loadRegs s base ks) (fun e => ∃ k, e = .v k ∧ k ∈ ks) := by
  intro e he
  cases e with
  | v k =>
    have hk : k ∉ ks := fun hmem => he ⟨k, rfl, hmem⟩
    rw [Elem.same, getV_loadRegs, if_neg hk]
  | _ => simp [Elem.same]

/-- A new `I` after the advance changes `I` and `pc`. -/
theorem advance_setI_frame (s : State) (w : Word) :
    UnchangedExcept s (setI (advance s) w) (fun e => e = .pc ∨ e = .i) :=
  (advance_frame s).trans (setI_frame _ w)

/-- The store of `n + 1` bytes after the advance changes the bytes at `a..a+n` and `pc`. -/
theorem advance_writeBytes_frame (s : State) (a : Nat) {bs : List Byte} (hlen : bs.length = n + 1) :
    UnchangedExcept s (writeBytes (advance s) a bs) (fun e => e = .pc ∨ ∃ a', e = .mem a' ∧ a ≤ a' ∧ a' ≤ a + n) := by
  refine ((advance_frame s).trans (writeBytes_frame (advance s) a bs)).mono ?_
  rintro e (hpc | ⟨a', hmem, hlo, hhi⟩)
  · exact .inl hpc
  · exact .inr ⟨a', hmem, hlo, by omega⟩

/-! ### The address checks -/

/-- A sequence of stores that begins in the protected region fails on its first address (R67, R313). -/
theorem checkWrites_below (n : Nat) (h : a < 0x200) : checkWrites a (n + 1) = some .writeProtected := by
  rw [checkWrites_eq _ n.succ_pos, programBase, if_pos h]

/-- A sequence of stores that begins above the protected region and ends past memory fails on an absent address (R66, R313). -/
theorem checkWrites_past (hlo : 0x200 ≤ a) (hhi : 0xFFF < a + n) : checkWrites a (n + 1) = some .memoryOutOfRange := by
  have hpast : memSize < a + (n + 1) := by simp only [memSize]; omega
  rw [checkWrites_eq _ n.succ_pos, programBase, if_neg (Nat.not_lt.mpr hlo), if_pos hpast]

/-- A sequence of stores inside the writable region passes (R67). -/
theorem checkWrites_within (hlo : 0x200 ≤ a) (hhi : a + n ≤ 0xFFF) : checkWrites a (n + 1) = none :=
  (checkWrites_none _ a).mpr (.inr ⟨hlo, by simp only [memSize]; omega⟩)

/-- A read past memory fails (R66). -/
theorem checkReads_past (h : 0xFFF < a + n) : checkReads a (n + 1) = some .memoryOutOfRange := by
  have hpast : memSize < a + (n + 1) := by simp only [memSize]; omega
  rw [checkReads_eq n.succ_pos, if_pos hpast]

/-- A read inside memory passes, wherever it begins (R66). -/
theorem checkReads_within (h : a + n ≤ 0xFFF) : checkReads a (n + 1) = none := by
  have hwithin : ¬ memSize < a + (n + 1) := by simp only [memSize]; omega
  rw [checkReads_eq n.succ_pos, if_neg hwithin]

/-! ### The executions -/

/-- LD F on a value that names no glyph enters the fault (R242). -/
theorem exec_ldFVx_of_no_glyph (h : 0x0F < (getV s x).toNat) :
    exec (.ldFVx x) s = .next (takeFault .operandOutOfRange (encode (.ldFVx x)) s) := by
  rw [exec, execLdFVx, indexOperand_none h, raise]

/-- LD F on a value that names a glyph makes `I` that glyph's address (R242). -/
theorem exec_ldFVx_of_glyph {k : Fin 16} (h : (getV s x).toNat = k.val) :
    exec (.ldFVx x) s = .next (setI (advance s) (BitVec.ofNat 16 (5 * k.val))) := by
  rw [exec, execLdFVx, indexOperand_some h]

/-- LD B whose addresses fail the check enters the fault of the check (R243). -/
theorem exec_ldBVx_of_fault (h : checkWrites s.i.toNat 3 = some f) :
    exec (.ldBVx x) s = .next (takeFault f (encode (.ldBVx x)) s) := by
  simp only [exec, execLdBVx, h, raise]

/-- LD B whose addresses pass the check stores the digits (R243). -/
theorem exec_ldBVx_of_pass (h : checkWrites s.i.toNat 3 = none) :
    exec (.ldBVx x) s = .next (writeBytes (advance s) s.i.toNat (bcdDigits (getV s x))) := by
  rw [exec, execLdBVx, h]

/-- LD [I], Vx whose addresses fail the check enters the fault of the check (R244). -/
theorem exec_ldMemVx_of_fault (h : checkWrites s.i.toNat (x.val + 1) = some f) :
    exec (.ldMemVx x) s = .next (takeFault f (encode (.ldMemVx x)) s) := by
  simp only [exec, execLdMemVx, h, raise]

/-- LD [I], Vx whose addresses pass the check stores the registers and updates `I` (R244). -/
theorem exec_ldMemVx_of_pass (h : checkWrites s.i.toNat (x.val + 1) = none) :
    exec (.ldMemVx x) s =
      .next (setI (writeBytes (advance s) s.i.toNat ((regsUpTo x).map (getV s))) (indexAfter s x)) := by
  rw [exec, execLdMemVx, h]

/-- LD Vx, [I] whose addresses fail the check enters the fault of the check (R245). -/
theorem exec_ldVxMem_of_fault (h : checkReads s.i.toNat (x.val + 1) = some f) :
    exec (.ldVxMem x) s = .next (takeFault f (encode (.ldVxMem x)) s) := by
  simp only [exec, execLdVxMem, h, raise]

/-- LD Vx, [I] whose addresses pass the check loads the registers and updates `I` (R245). -/
theorem exec_ldVxMem_of_pass (h : checkReads s.i.toNat (x.val + 1) = none) :
    exec (.ldVxMem x) s = .next (setI (loadRegs (advance s) s.i.toNat (regsUpTo x)) (indexAfter s x)) := by
  rw [exec, execLdVxMem, h]

/-! ### What the transfers leave -/

/-- The `k`-th byte of a store stands at its offset. -/
theorem readByte_writeBytes_offset (s : State) (a : Nat) {bs : List Byte} {k : Nat} (hk : k < bs.length) :
    readByte (writeBytes s a bs) (a + k) = bs[k] := by
  rw [readByte_writeBytes, dif_pos ⟨Nat.le_add_right a k, by omega⟩]
  simp only [Nat.add_sub_cancel_left]

/-- The store of the registers `V0..V[x]` puts each at its own offset (R244). -/
theorem readByte_writeRegs {k : RegIdx} (s t : State) (a : Nat) (hk : k.val ≤ x.val) :
    readByte (writeBytes t a ((regsUpTo x).map (getV s))) (a + k.val) = getV s k := by
  have hlen : k.val < (regsUpTo x).length := by rw [regsUpTo_length]; omega
  have hreg : (regsUpTo x)[k.val] = k := Fin.ext (regsUpTo_getElem x k.val hlen)
  rw [readByte_writeBytes_offset t a (by simpa using hlen), List.getElem_map, hreg]

/-- The store of the decimal digits puts hundreds, tens and ones at consecutive addresses (R243). -/
theorem readByte_writeBytes_bcdDigits (t : State) (a : Nat) (v : Byte) :
    (readByte (writeBytes t a (bcdDigits v)) a).toNat = v.toNat / 100 ∧
    (readByte (writeBytes t a (bcdDigits v)) (a + 1)).toNat = v.toNat / 10 % 10 ∧
    (readByte (writeBytes t a (bcdDigits v)) (a + 2)).toNat = v.toNat % 10 := by
  refine ⟨?_, ?_, ?_⟩ <;> simp [readByte_writeBytes, bcdDigits]

/-- The loads from memory put the byte at each offset into the register of that number (R245). -/
theorem getV_loadRegs_regsUpTo {k : RegIdx} (s : State) (base : Nat) (hk : k.val ≤ x.val) :
    getV (loadRegs s base (regsUpTo x)) k = readByte s (base + k.val) := by
  rw [getV_loadRegs, if_pos (mem_regsUpTo.mpr hk)]

/-! ### The words of family F -/

/-- The word `FxNN` as a number (R97). -/
theorem fmtReg_familyF_toNat (x : RegIdx) (ff : Byte) : (fmtReg 0xF x ff).toNat = 0xF000 + ff.toNat + 256 * x.val := by
  have hword : (fmtReg 0xF x ff).toNat = 0xF000 + 256 * x.val + ff.toNat := fmtReg_toNat 0xF x ff
  omega

end

/-! ### The statements -/

/-- Settles O28: the check of the addresses gives the fault of each range, and where it passes the store puts every register at
its offset before `I` is updated. -/
theorem ldMemVxStoresRegisters : Obligations.LdMemVxStoresRegisters := by
  refine fun x => ⟨fullRow_of_profile rfl (fmtReg_familyF_toNat x 0x55), fun s =>
    ⟨fun hlow => ?_, fun hlo hhi => ?_, fun hlo hhi => ?_⟩⟩
  · exact ⟨_, exec_ldMemVx_of_fault (checkWrites_below _ hlow), takeFault_enters .writeProtected _ s⟩
  · exact ⟨_, exec_ldMemVx_of_fault (checkWrites_past hlo hhi), takeFault_enters .memoryOutOfRange _ s⟩
  · have hlen : ((regsUpTo x).map (getV s)).length = x.val + 1 := by rw [List.length_map, regsUpTo_length]
    refine ⟨_, exec_ldMemVx_of_pass (checkWrites_within hlo hhi), fun _ hk => readByte_writeRegs s _ _ hk,
      indexAfter_none x, fun hc => indexAfter_xPlus1 x hc hhi, fun hc => indexAfter_x x hc hhi, by simp, ?_⟩
    refine ((advance_writeBytes_frame s _ hlen).trans (setI_frame _ _)).mono ?_
    rintro e ((hpc | hmem) | hi)
    · exact .inl hpc
    · exact .inr (.inr hmem)
    · exact .inr (.inl hi)

/-- Settles O29: the check of the addresses gives the fault past memory, and where it passes every register of the range gets the
byte at its offset before `I` is updated. -/
theorem ldVxMemLoadsRegisters : Obligations.LdVxMemLoadsRegisters := by
  refine fun x => ⟨fullRow_of_profile rfl (fmtReg_familyF_toNat x 0x65), fun s => ⟨fun hhi => ?_, fun hhi => ?_⟩⟩
  · exact ⟨_, exec_ldVxMem_of_fault (checkReads_past hhi), takeFault_enters .memoryOutOfRange _ s⟩
  · refine ⟨_, exec_ldVxMem_of_pass (checkReads_within hhi), fun _ hk => getV_loadRegs_regsUpTo (advance s) _ hk,
      indexAfter_none x, fun hc => indexAfter_xPlus1 x hc hhi, fun hc => indexAfter_x x hc hhi, by simp, ?_⟩
    refine (((advance_frame s).trans (loadRegs_frame _ _ _)).trans (setI_frame _ _)).mono ?_
    rintro e ((hpc | ⟨k, hv, hk⟩) | hi)
    · exact .inl hpc
    · exact .inr (.inr ⟨k, hv, mem_regsUpTo.mp hk⟩)
    · exact .inr (.inl hi)

/-- Settles O24: `I` becomes the zero-extended address, whose number is the address's. -/
theorem ldILoadsAddress : Obligations.LdILoadsAddress :=
  fun nnn => ⟨fullRow_of_profile rfl (fmtAddr_toNat 0xA nnn), fun s =>
    ⟨_, rfl, zextAddr_toNat nnn, rfl, advance_setI_frame s _⟩⟩

/-- Settles O25: `I` becomes a sum of words, whose number is the sum modulo 65536; `VF` is in the frame. -/
theorem addIVxAddsModulo16Bits : Obligations.AddIVxAddsModulo16Bits :=
  fun x => ⟨fullRow_of_profile rfl (fmtReg_familyF_toNat x 0x1E), fun s =>
    ⟨_, rfl, by rw [setI_i, BitVec.toNat_add, zextByte_toNat], rfl, advance_setI_frame s _⟩⟩

/-- Settles O26: above 0x0F the step is the fault's entry, and otherwise `I` becomes the glyph's address, at most 75. -/
theorem ldFVxPointsAtGlyph : Obligations.LdFVxPointsAtGlyph := by
  refine fun x => ⟨fullRow_of_profile rfl (fmtReg_familyF_toNat x 0x29), fun s => ⟨fun hhigh => ?_, fun hlow => ?_⟩⟩
  · exact ⟨_, exec_ldFVx_of_no_glyph hhigh, takeFault_enters .operandOutOfRange _ s⟩
  · obtain ⟨k, hk⟩ : ∃ k : Fin 16, (getV s x).toNat = k.val := ⟨⟨_, Nat.lt_succ_of_le hlow⟩, rfl⟩
    refine ⟨_, exec_ldFVx_of_glyph hk, ?_, rfl, advance_setI_frame s _⟩
    rw [setI_i, BitVec.toNat_ofNat, hk]
    omega

/-- Settles O27: the check of the three addresses gives the fault of each range, and where it passes the three digits stand at
their offsets. -/
theorem ldBVxStoresDecimalDigits : Obligations.LdBVxStoresDecimalDigits := by
  refine fun x => ⟨fullRow_of_profile rfl (fmtReg_familyF_toNat x 0x33), fun s =>
    ⟨fun hlow => ?_, fun hlo hhi => ?_, fun hlo hhi => ?_⟩⟩
  · exact ⟨_, exec_ldBVx_of_fault (checkWrites_below 2 hlow), takeFault_enters .writeProtected _ s⟩
  · exact ⟨_, exec_ldBVx_of_fault (checkWrites_past hlo hhi), takeFault_enters .memoryOutOfRange _ s⟩
  · obtain ⟨hhundreds, htens, hones⟩ := readByte_writeBytes_bcdDigits (advance s) s.i.toNat (getV s x)
    exact ⟨_, exec_ldBVx_of_pass (checkWrites_within hlo hhi), hhundreds, htens, hones, by simp,
      advance_writeBytes_frame s _ rfl⟩

end Sys2Proof.Machine
end

section
/-! SUPPORT. The sprite, the random draw, the timers and the key-wait (spec/47_ext_display_timers_input.md): what a part of a
sprite does to the display and the hit flag, composed from one set bit over a row to all rows, and the frames of the operations
that these instructions make. -/

namespace Sys2Proof.Machine

section
variable {s : State} {x y : RegIdx}

/-! ### Frames -/

theorem setV_frame (s : State) (x : RegIdx) (b : Byte) : UnchangedExcept s (setV s x b) (fun e => e = .v x) := by
  intro e he
  cases e with
  | v k => exact getV_setV_other s b (fun hk => he (by rw [hk]))
  | _ => simp [Elem.same]

theorem countDraw_frame (s : State) : UnchangedExcept s (countDraw s) (fun e => e = .draws) := by
  intro e he
  cases e <;> simp [Elem.same] at he ⊢

theorem setDT_frame (s : State) (b : Byte) : UnchangedExcept s (setDT s b) (fun e => e = .dt) := by
  intro e he
  cases e <;> simp [Elem.same] at he ⊢

theorem setST_frame (s : State) (b : Byte) : UnchangedExcept s (setST s b) (fun e => e = .st) := by
  intro e he
  cases e <;> simp [Elem.same] at he ⊢

theorem enterWait_frame (s : State) (x : RegIdx) :
    UnchangedExcept s (enterWait s x) (fun e => e = .blockingInput ∨ e = .blockingTarget) := by
  intro e he
  cases e <;> simp [Elem.same] at he ⊢

/-- A new display changes `redraw_pending` and the cells in which it differs. -/
theorem setDisplay_frame (s : State) (d : Display) :
    UnchangedExcept s (setDisplay s d)
      (fun e => e = .redrawPending ∨ ∃ px py, e = .disp px py ∧ getPixel d px py ≠ getPixel s.disp px py) := by
  intro e he
  cases e with
  | disp px py => exact not_not.mp fun hne => he (.inr ⟨px, py, rfl, hne⟩)
  | _ => simp [Elem.same] at he ⊢

/-! ### Set bits that fall on distinct cells -/

/-- `b` is `a`, a display with its hit flag, after one set sprite bit has fallen on every cell of `covers`: those cells are
inverted, and the flag is raised when one of them was 1 (R261). -/
structure InvertsOn (covers : Fin 64 → Fin 32 → Prop) (a b : Display × Bool) : Prop where
  cells : ∀ px py, getPixel b.1 px py = true ↔ (getPixel a.1 px py = true ↔ ¬ covers px py)
  hit   : b.2 = true ↔ a.2 = true ∨ ∃ px py, covers px py ∧ getPixel a.1 px py = true

section
variable {P Q R : Fin 64 → Fin 32 → Prop} {a b c : Display × Bool} {px : Fin 64} {py : Fin 32}

/-- A cell that no set bit falls on keeps its value. -/
theorem InvertsOn.getPixel_of_not (h : InvertsOn P a b) (hP : ¬ P px py) : getPixel b.1 px py = getPixel a.1 px py := by
  have := h.cells px py
  rw [Bool.eq_iff_iff]
  tauto

/-- A cell that a set bit falls on changes its value. -/
theorem InvertsOn.getPixel_of_covered (h : InvertsOn P a b) (hP : P px py) : getPixel b.1 px py = !getPixel a.1 px py := by
  have := h.cells px py
  rw [Bool.eq_iff_iff, Bool.not_eq_true']
  simp [this, hP]

/-- Where no bit is set nothing happens. -/
theorem InvertsOn.refl (hP : ∀ px py, ¬ P px py) (a : Display × Bool) : InvertsOn P a a :=
  ⟨fun px py => by simp [hP px py], by simp [hP]⟩

theorem InvertsOn.congr (h : InvertsOn P a b) (hQ : ∀ px py, Q px py ↔ P px py) : InvertsOn Q a b :=
  (funext₂ fun px py => propext (hQ px py) : Q = P) ▸ h

/-- Two parts of a sprite that share no cell make up one whose cells are those of both. -/
theorem InvertsOn.trans (h₁ : InvertsOn P a b) (h₂ : InvertsOn Q b c) (hdisjoint : ∀ px py, P px py → ¬ Q px py)
    (hR : ∀ px py, R px py ↔ P px py ∨ Q px py) : InvertsOn R a c := by
  refine ⟨fun px py => ?_, ?_⟩
  · have hb := h₁.cells px py
    have hc := h₂.cells px py
    have hd := hdisjoint px py
    have hr := hR px py
    tauto
  · have hkept : ∀ px py, Q px py ∧ getPixel b.1 px py = true ↔ Q px py ∧ getPixel a.1 px py = true := fun px py =>
      and_congr_right fun hQ => by rw [h₁.getPixel_of_not fun hP => hdisjoint px py hP hQ]
    simp only [h₂.hit, h₁.hit, hkept, hR, or_and_right, exists_or, or_assoc]

end

/-! ### One bit, one row, all rows -/

/-- A pixel's cell gives its coordinates modulo the display's size, whatever `DRAW_EDGE`. -/
theorem mod_of_drawCell {edge : DrawEdge} {qx qy : Nat} {px : Fin 64} {py : Fin 32}
    (h : drawCell edge qx qy = some (px, py)) : qx % 64 = px.val ∧ qy % 32 = py.val := by
  have hcell := drawCell_eq_some.mp h
  cases edge with
  | clip =>
    obtain ⟨rfl, rfl⟩ : qx = px.val ∧ qy = py.val := hcell
    exact ⟨Nat.mod_eq_of_lt px.isLt, Nat.mod_eq_of_lt py.isLt⟩
  | wrap => exact hcell

theorem drawPixel_inverts (edge : DrawEdge) (qx qy : Nat) (acc : Display × Bool) :
    InvertsOn (fun px py => drawCell edge qx qy = some (px, py)) acc (drawPixel edge qx qy acc) := by
  refine ⟨fun px py => ?_, hit_drawPixel edge qx qy acc⟩
  rw [getPixel_drawPixel]
  by_cases h : drawCell edge qx qy = some (px, py) <;> simp [h]

/-- A set bit in one of the last `left` columns of the sprite row `b` falls on the cell. -/
def rowCovers (edge : DrawEdge) (x0 qy : Nat) (b : Byte) (left : Nat) (px : Fin 64) (py : Fin 32) : Prop :=
  ∃ c, 8 ≤ c + left ∧ c < 8 ∧ b.getLsbD (7 - c) = true ∧ drawCell edge (x0 + c) qy = some (px, py)

/-- The cells of the last `left + 1` columns are those of the first of them and those of the rest. -/
theorem rowCovers_succ (edge : DrawEdge) (x0 qy : Nat) (b : Byte) {left : Nat} (hleft : left < 8) (px : Fin 64)
    (py : Fin 32) :
    rowCovers edge x0 qy b (left + 1) px py ↔
      (b.getLsbD (7 - (7 - left)) = true ∧ drawCell edge (x0 + (7 - left)) qy = some (px, py)) ∨
        rowCovers edge x0 qy b left px py := by
  constructor
  · rintro ⟨c, hlo, hhi, hbit, hcell⟩
    obtain rfl | hc : c = 7 - left ∨ 8 ≤ c + left := by omega
    · exact .inl ⟨hbit, hcell⟩
    · exact .inr ⟨c, hc, hhi, hbit, hcell⟩
  · rintro (⟨hbit, hcell⟩ | ⟨c, hlo, hhi, hbit, hcell⟩)
    · exact ⟨7 - left, by omega, by omega, hbit, hcell⟩
    · exact ⟨c, by omega, hhi, hbit, hcell⟩

/-- The columns of a row are fewer than the display's, so no two of them share a cell, wrapped or not. -/
theorem drawRow_inverts (edge : DrawEdge) (x0 qy : Nat) (b : Byte) {left : Nat} (hleft : left ≤ 8)
    (acc : Display × Bool) : InvertsOn (rowCovers edge x0 qy b left) acc (drawRow edge x0 qy b left acc) := by
  induction left generalizing acc with
  | zero => exact .refl (fun px py ⟨c, hlo, hhi, _⟩ => by omega) acc
  | succ k ih =>
    have hsplit := rowCovers_succ edge x0 qy b hleft
    rw [drawRow]
    split
    case isTrue hbit =>
      refine (drawPixel_inverts edge (x0 + (7 - k)) qy acc).trans (ih (by omega) _) ?_ ?_
      · rintro px py hfirst ⟨c, hlo, hhi, -, hcell⟩
        have := (mod_of_drawCell hfirst).1.trans (mod_of_drawCell hcell).1.symm
        omega
      · simpa [hbit] using hsplit
    case isFalse hbit =>
      exact (ih (by omega) acc).congr (by simpa [hbit] using hsplit)

/-- A set bit in one of the rows `r, r+1, …, r+left-1` of the sprite at `I` falls on the cell. -/
def rowsCover (s : State) (x0 y0 r left : Nat) (px : Fin 64) (py : Fin 32) : Prop :=
  ∃ k, r ≤ k ∧ k < r + left ∧ rowCovers s.cfg.drawEdge x0 (y0 + k) (readByte s (s.i.toNat + k)) 8 px py

/-- The rows of a sprite are fewer than the display's, so no two of them share a cell, wrapped or not. -/
theorem drawRows_inverts (s : State) (x0 y0 r : Nat) {left : Nat} (hleft : left ≤ 32) (acc : Display × Bool) :
    InvertsOn (rowsCover s x0 y0 r left) acc (drawRows s x0 y0 r left acc) := by
  induction left generalizing r acc with
  | zero => exact .refl (fun px py ⟨k, hlo, hhi, _⟩ => by omega) acc
  | succ left ih =>
    refine (drawRow_inverts _ x0 (y0 + r) (readByte s (s.i.toNat + r)) le_rfl acc).trans
      (ih (r + 1) (by omega) _) ?_ fun px py => ⟨?_, ?_⟩
    · rintro px py ⟨_, -, -, -, hcell⟩ ⟨k, hlo, hhi, _, -, -, -, hcell'⟩
      have := (mod_of_drawCell hcell).2.trans (mod_of_drawCell hcell').2.symm
      omega
    · rintro ⟨k, hlo, hhi, hrow⟩
      obtain rfl | hk : k = r ∨ r + 1 ≤ k := by omega
      · exact .inl hrow
      · exact .inr ⟨k, hk, by omega, hrow⟩
    · rintro (hrow | ⟨k, hlo, hhi, hrow⟩)
      · exact ⟨r, le_rfl, by omega, hrow⟩
      · exact ⟨k, by omega, by omega, hrow⟩

/-- The cells of all rows are those that R261 says the sprite covers. -/
theorem rowsCover_zero_eq_spriteCovers (s : State) (x0 y0 n : Nat) : rowsCover s x0 y0 0 n = spriteCovers s x0 y0 n := by
  funext px py
  simp only [rowsCover, rowCovers, spriteCovers, drawCell_eq_some, eq_iff_iff]
  constructor
  · rintro ⟨r, -, hr, c, -, hc, hbit, hcell⟩
    exact ⟨r, c, by omega, hc, hbit, hcell⟩
  · rintro ⟨r, c, hr, hc, hbit, hcell⟩
    exact ⟨r, by omega, by omega, c, by omega, hc, hbit, hcell⟩

/-- The drawing inverts the cells that the sprite covers, from the start coordinates reduced first (R261). -/
theorem drawSprite_inverts (x y : RegIdx) (n : Fin 16) (s : State) :
    InvertsOn (spriteCovers s ((getV s x).toNat % 64) ((getV s y).toNat % 32) n.val) (s.disp, false)
      (drawSprite x y n s) :=
  rowsCover_zero_eq_spriteCovers s _ _ _ ▸ drawRows_inverts s _ _ 0 (by omega) (s.disp, false)

/-! ### The execution of DRW -/

/-- The state after the drawing: the display and `redraw_pending`, then `VF`, after the advance (R261). -/
def afterDrw (x y : RegIdx) (n : Fin 16) (s : State) : State :=
  setV (setDisplay (advance s) (drawSprite x y n s).1) 0xF (flagByte (drawSprite x y n s).2)

/-- A sprite with a byte past memory enters the fault (R66, R261). -/
theorem exec_drw_of_past {n : Fin 16} (hn : 0 < n.val) (h : 0xFFF < s.i.toNat + n.val - 1) :
    exec (.drw x y n) s = .next (takeFault .memoryOutOfRange (encode (.drw x y n)) s) := by
  have hpast : memSize < s.i.toNat + n.val := by simp only [memSize]; omega
  have hcheck : checkReads s.i.toNat n.val = some .memoryOutOfRange := by rw [checkReads_eq hn, if_pos hpast]
  simp only [exec, execDrw, hcheck, raise]

/-- A sprite without rows, or with every byte inside memory, is drawn (R66, R261). -/
theorem exec_drw_of_within {n : Fin 16} (h : n.val = 0 ∨ s.i.toNat + n.val - 1 ≤ 0xFFF) :
    exec (.drw x y n) s = .next (afterDrw x y n s) := by
  have hcheck : checkReads s.i.toNat n.val = none := by
    rw [checkReads, if_neg]
    simp only [memSize]
    omega
  simp only [exec, execDrw, hcheck, afterDrw]

theorem getV_afterDrw_other (y : RegIdx) (n : Fin 16) (s : State) {k : RegIdx} (hk : k ≠ 0xF) :
    getV (afterDrw x y n s) k = getV s k := by
  rw [afterDrw, getV_setV_other _ _ hk, getV_setDisplay, getV_advance]

/-- The flag of the drawing is raised exactly when a set bit falls on a cell that was 1. -/
theorem hit_drawSprite (x y : RegIdx) (n : Fin 16) (s : State) :
    (drawSprite x y n s).2 = true ↔ ∃ px py,
      spriteCovers s ((getV s x).toNat % 64) ((getV s y).toNat % 32) n.val px py ∧ getPixel s.disp px py = true := by
  simpa using (drawSprite_inverts x y n s).hit

theorem flagByte_eq_one (c : Bool) : flagByte c = 1 ↔ c = true := by cases c <;> decide

theorem flagByte_eq_zero (c : Bool) : flagByte c = 0 ↔ ¬ c = true := by cases c <;> decide

/-- `VF` is 1 exactly when a set bit falls on a cell that was 1. -/
theorem getV_afterDrw_eq_one (x y : RegIdx) (n : Fin 16) (s : State) :
    getV (afterDrw x y n s) 0xF = 1 ↔ ∃ px py,
      spriteCovers s ((getV s x).toNat % 64) ((getV s y).toNat % 32) n.val px py ∧ getPixel s.disp px py = true := by
  rw [afterDrw, getV_setV_same, flagByte_eq_one, hit_drawSprite]

/-- `VF` is 0 exactly when no set bit falls on a cell that was 1. -/
theorem getV_afterDrw_eq_zero (x y : RegIdx) (n : Fin 16) (s : State) :
    getV (afterDrw x y n s) 0xF = 0 ↔ ¬ ∃ px py,
      spriteCovers s ((getV s x).toNat % 64) ((getV s y).toNat % 32) n.val px py ∧ getPixel s.disp px py = true := by
  rw [afterDrw, getV_setV_same, flagByte_eq_zero, hit_drawSprite]

/-- The drawing changes `pc`, `redraw_pending`, `VF` and the cells that the sprite covers. -/
theorem afterDrw_frame (x y : RegIdx) (n : Fin 16) (s : State) :
    UnchangedExcept s (afterDrw x y n s) (fun e => e = .pc ∨ e = .redrawPending ∨ e = .v 0xF ∨
      ∃ px py, e = .disp px py ∧ spriteCovers s ((getV s x).toNat % 64) ((getV s y).toNat % 32) n.val px py) := by
  refine (((advance_frame s).trans (setDisplay_frame _ _)).trans (setV_frame _ _ _)).mono ?_
  rintro e ((hpc | hredraw | ⟨px, py, hdisp, hne⟩) | hflag)
  · exact .inl hpc
  · exact .inr (.inl hredraw)
  · exact .inr (.inr (.inr ⟨px, py, hdisp, not_not.mp (mt (drawSprite_inverts x y n s).getPixel_of_not hne)⟩))
  · exact .inr (.inr (.inl hflag))

/-- What the sprite covers does not depend on the elements that a drawing writes. -/
theorem spriteCovers_afterDrw (x y : RegIdx) (n : Fin 16) (s : State) :
    spriteCovers (afterDrw x y n s) = spriteCovers s := rfl

/-- A display is what its cells are. -/
theorem display_ext {d e : Display} (h : ∀ px py, getPixel d px py = getPixel e px py) : d = e :=
  Vector.ext fun py hy => Vector.ext fun px hx => h ⟨px, hx⟩ ⟨py, hy⟩

end

/-! ### The statements -/

/-- Settles O31: the check of the sprite's addresses gives the fault past memory, and where it passes the drawing inverts the
cells that the sprite covers. -/
theorem drwInvertsCoveredCells : Obligations.DrwInvertsCoveredCells := by
  refine fun x y n => ⟨fullRow_of_profile rfl (fmtRegReg_toNat 0xD x y (BitVec.ofFin n)), ?_⟩
  rintro s _ _ rfl rfl
  refine ⟨fun hn hpast => ?_, fun hwithin => ?_⟩
  · exact ⟨_, exec_drw_of_past hn hpast, takeFault_enters .memoryOutOfRange _ s⟩
  · exact ⟨_, exec_drw_of_within hwithin, (drawSprite_inverts x y n s).cells, (getV_afterDrw_eq_one x y n s).mpr,
      (getV_afterDrw_eq_zero x y n s).mpr, rfl, rfl, afterDrw_frame x y n s⟩

/-- Settles O32: the second drawing covers the cells of the first, so it inverts them back, and it hits where the first has left
a 1, that is, on a covered cell that was 0. -/
theorem drawingTwiceRestoresDisplay : Obligations.DrawingTwiceRestoresDisplay := by
  intro x y n s t u hx hy hsprite hfirst hsecond
  have hwithin : n.val = 0 ∨ s.i.toNat + n.val - 1 ≤ 0xFFF := by omega
  obtain rfl : afterDrw x y n s = t := by simpa [exec_drw_of_within hwithin] using hfirst
  obtain rfl : afterDrw x y n (afterDrw x y n s) = u := by
    simpa [exec_drw_of_within (s := afterDrw x y n s) hwithin] using hsecond
  have h₁ := drawSprite_inverts x y n s
  have h₂ := drawSprite_inverts x y n (afterDrw x y n s)
  rw [spriteCovers_afterDrw, getV_afterDrw_other y n s hx, getV_afterDrw_other y n s hy] at h₂
  refine ⟨display_ext fun px py => ?_, ?_⟩
  · by_cases hc : spriteCovers s ((getV s x).toNat % 64) ((getV s y).toNat % 32) n.val px py
    · exact (h₂.getPixel_of_covered hc).trans (Bool.not_eq_eq_eq_not.mpr (h₁.getPixel_of_covered hc))
    · exact (h₂.getPixel_of_not hc).trans (h₁.getPixel_of_not hc)
  · rw [getV_afterDrw_eq_one, spriteCovers_afterDrw, getV_afterDrw_other y n s hx, getV_afterDrw_other y n s hy]
    refine exists₂_congr fun px py => and_congr_right fun hc => ?_
    rw [← Bool.not_eq_true', ← h₁.getPixel_of_covered hc]
    rfl

/-- Settles O30: the byte written is the next draw under the mask, and the mask 0 leaves no bit of it. -/
theorem rndMasksFreshDraw : Obligations.RndMasksFreshDraw := by
  refine fun x nn => ⟨fullRow_of_profile rfl (fmtRegImm_toNat 0xC x nn), fun s => ?_⟩
  have hdraw : getV (setV (countDraw (advance s)) x (nextDraw s &&& nn)) x = Config.drawRand8 s.draws &&& nn :=
    getV_setV_same _ _ _
  refine ⟨_, rfl, hdraw, fun hnn => by rw [hdraw, hnn]; exact BitVec.and_zero, rfl, rfl, ?_⟩
  refine (((advance_frame s).trans (countDraw_frame _)).trans (setV_frame _ _ _)).mono ?_
  rintro e ((hpc | hdraws) | hv)
  · exact .inl hpc
  · exact .inr (.inr hdraws)
  · exact .inr (.inl hv)

/-- Settles O33: the byte written is the timer's before the tick's decrement, which writes no register. -/
theorem ldVxDTReadsDelayTimer : Obligations.LdVxDTReadsDelayTimer := by
  refine fun x => ⟨fullRow_of_profile rfl (fmtReg_familyF_toNat x 0x07), fun s => ?_, fun s hx => ?_⟩
  · exact ⟨_, rfl, getV_setV_same _ x s.dt, rfl, advance_setV_frame s x s.dt⟩
  · exact ⟨_, step_of_executes hx, getV_setV_same _ x s.dt, decrementTimer_toNat s.dt⟩

/-- Settles O34: the wait is entered before any poll; the next tick is the poll, which a key that is down completes. -/
theorem ldVxKEntersKeyWait : Obligations.LdVxKEntersKeyWait := by
  refine fun x => ⟨fullRow_of_profile rfl (fmtReg_familyF_toNat x 0x0A), fun s => ⟨_, rfl, rfl, rfl, enterWait_frame s x⟩,
    fun s hx => ?_⟩
  refine ⟨_, step_of_executes hx, rfl, rfl, ?_, fun k hk hsmallest => ?_⟩
  · simpa only [or_assoc] using (enterWait_frame s x).then_decrementTimers
  · refine ⟨_, step_of_waiting hx.running rfl, ?_⟩
    rw [keyPoll_of_smallest (s := decrementTimers (enterWait s x)) hk hsmallest]
    refine ⟨?_, rfl, rfl⟩
    simp
    omega

/-- Settles O35: the tick's decrement follows the write of `DT`. -/
theorem ldDTVxSetsDelayTimer : Obligations.LdDTVxSetsDelayTimer := by
  refine fun x => ⟨fullRow_of_profile rfl (fmtReg_familyF_toNat x 0x15), fun s => ?_, fun s hx => ?_⟩
  · exact ⟨_, rfl, rfl, rfl, (advance_frame s).trans (setDT_frame _ _)⟩
  · exact ⟨_, step_of_executes hx, decrementTimer_toNat (getV s x)⟩

/-- Settles O36: the tick's decrement follows the write of `ST`. -/
theorem ldSTVxSetsSoundTimer : Obligations.LdSTVxSetsSoundTimer := by
  refine fun x => ⟨fullRow_of_profile rfl (fmtReg_familyF_toNat x 0x18), fun s => ?_, fun s hx => ?_⟩
  · exact ⟨_, rfl, rfl, rfl, (advance_frame s).trans (setST_frame _ _)⟩
  · exact ⟨_, step_of_executes hx, decrementTimer_toNat (getV s x)⟩

end Sys2Proof.Machine
end

section
/-! SUPPORT. Faults and the illegal word (spec/60_exceptions.md): the fault that R300 lists for an instruction, in the terms of the
instruction's own checks, what its execution then is, and the tick that fetches an illegal word. -/

namespace Sys2Proof.Machine

section
variable {s : State} {i : Instr} {f : CoreFault}

/-! ### The listed fault in terms of the address checks -/

/-- The listed conditions on the addresses of the two stores are what the checks of these addresses answer (R243, R244, R313). -/
theorem checkWrites_succ (a n : Nat) : checkWrites a (n + 1) =
    if a < 0x200 then some .writeProtected else if 0xFFF < a + n then some .memoryOutOfRange else none := by
  have hpast : memSize < a + (n + 1) ↔ 0xFFF < a + n := by simp only [memSize]; omega
  simp only [checkWrites_eq _ n.succ_pos, hpast, programBase]

theorem raisedFault_ldBVx (x : RegIdx) (s : State) : raisedFault (.ldBVx x) s = checkWrites s.i.toNat 3 :=
  (checkWrites_succ _ 2).symm

theorem raisedFault_ldMemVx (x : RegIdx) (s : State) :
    raisedFault (.ldMemVx x) s = checkWrites s.i.toNat (x.val + 1) :=
  (checkWrites_succ _ x.val).symm

/-! ### Every instruction -/

/-- Where R300 lists a fault for the instruction, its execution is that fault's entry with the instruction's own word (R310). -/
theorem exec_of_raisedFault (h : raisedFault i s = some f) : exec i s = .next (takeFault f (encode i) s) := by
  cases i with
  | ret =>
    obtain ⟨hempty, ⟨⟩⟩ := Option.ite_none_right_eq_some.mp h
    exact exec_ret_of_empty hempty
  | call nnn =>
    obtain ⟨hfull, ⟨⟩⟩ := Option.ite_none_right_eq_some.mp h
    exact exec_call_of_full hfull nnn
  | skp x =>
    obtain ⟨hhigh, ⟨⟩⟩ := Option.ite_none_right_eq_some.mp h
    exact exec_skp_of_no_key hhigh
  | sknp x =>
    obtain ⟨hhigh, ⟨⟩⟩ := Option.ite_none_right_eq_some.mp h
    exact exec_sknp_of_no_key hhigh
  | ldFVx x =>
    obtain ⟨hhigh, ⟨⟩⟩ := Option.ite_none_right_eq_some.mp h
    exact exec_ldFVx_of_no_glyph hhigh
  | ldBVx x => exact exec_ldBVx_of_fault ((raisedFault_ldBVx x s).symm.trans h)
  | ldMemVx x => exact exec_ldMemVx_of_fault ((raisedFault_ldMemVx x s).symm.trans h)
  | ldVxMem x =>
    obtain ⟨hpast, ⟨⟩⟩ := Option.ite_none_right_eq_some.mp h
    exact exec_ldVxMem_of_fault (checkReads_past hpast)
  | drw x y n =>
    obtain ⟨⟨hn, hpast⟩, ⟨⟩⟩ := Option.ite_none_right_eq_some.mp h
    exact exec_drw_of_past hn hpast
  | _ => cases h

/-- A register value that is not above 0x0F names a key or a glyph (R221, R242). -/
theorem exists_index_of_le {b : Byte} (h : ¬ 0x0F < b.toNat) : ∃ k : Fin 16, b.toNat = k.val :=
  ⟨⟨b.toNat, by omega⟩, rfl⟩

/-- Where R300 lists no fault for the instruction and `sp` is at most 16, its execution completes and leaves the fault register
alone. -/
theorem exec_of_no_raisedFault (hsp : s.sp.toNat ≤ 16) (h : raisedFault i s = none) :
    ∃ t, exec i s = .next t ∧ t.fault = s.fault := by
  cases i with
  | ret =>
    have hsome : s.sp ≠ 0 := by simpa [raisedFault] using h
    have hpos : 0 < s.sp.toNat := by bv_omega
    obtain ⟨k, hk⟩ : ∃ k : Fin 16, s.sp.toNat = k.val + 1 :=
      ⟨⟨s.sp.toNat - 1, by omega⟩, (Nat.sub_add_cancel hpos).symm⟩
    exact ⟨_, exec_ret_of_nonempty hk, rfl⟩
  | call nnn =>
    have hroom : s.sp ≠ 16 := by simpa [raisedFault] using h
    exact ⟨_, exec_call_of_room (by bv_omega) nnn, rfl⟩
  | skp x =>
    obtain ⟨k, hk⟩ := exists_index_of_le (b := getV s x) (by simpa [raisedFault] using h)
    exact ⟨_, exec_skp_of_key hk, by simp⟩
  | sknp x =>
    obtain ⟨k, hk⟩ := exists_index_of_le (b := getV s x) (by simpa [raisedFault] using h)
    exact ⟨_, exec_sknp_of_key hk, by simp⟩
  | ldFVx x =>
    obtain ⟨k, hk⟩ := exists_index_of_le (b := getV s x) (by simpa [raisedFault] using h)
    exact ⟨_, exec_ldFVx_of_glyph hk, rfl⟩
  | ldBVx x => exact ⟨_, exec_ldBVx_of_pass ((raisedFault_ldBVx x s).symm.trans h), by simp⟩
  | ldMemVx x => exact ⟨_, exec_ldMemVx_of_pass ((raisedFault_ldMemVx x s).symm.trans h), by simp⟩
  | ldVxMem x =>
    have hwithin : ¬ 0xFFF < s.i.toNat + x.val := by simpa [raisedFault] using h
    exact ⟨_, exec_ldVxMem_of_pass (checkReads_within (Nat.le_of_not_lt hwithin)), by simp⟩
  | drw x y n =>
    have hwithin : ¬ (0 < n.val ∧ 0xFFF < s.i.toNat + n.val - 1) := by
      intro hpast
      simp [raisedFault, hpast] at h
    exact ⟨_, exec_drw_of_within (by omega), rfl⟩
  | _ => exact ⟨_, rfl, by simp⟩

/-! ### The illegal word -/

theorem reportIllegal_frame (s : State) (op a : Word) :
    UnchangedExcept s (reportIllegal s op a) (fun e => e = .illegalSeen ∨ e = .illegalOpcode ∨ e = .illegalPc) := by
  intro e he
  cases e <;> simp [Elem.same] at he ⊢

section
variable (running : s.fault.code = 0) (awake : s.blockingInput = false) (inRange : s.pc.toNat ≤ 0xFFE)
  (illegal : decode s.cfg.profile (wordAt s s.pc.toNat) = .illegal (wordAt s s.pc.toNat))
include running awake inRange illegal

/-- A running core that fetches an illegal word does what the policy says, and the timers are decremented (R301, R120). -/
theorem step_of_illegal : step s = thenTimers (execIllegal (wordAt s s.pc.toNat) s) := by
  simp [step, tick, halted, running, coreStep, awake, fetchExecute, fetch_some inRange, illegal]

/-- Under HALT the illegal word enters the fault (R301). -/
theorem step_of_illegal_halt (hp : s.cfg.illegalPolicy = .halt) :
    step s = .next (decrementTimers (takeFault .illegalInstruction (wordAt s s.pc.toNat) s)) := by
  rw [step_of_illegal running awake inRange illegal, execIllegal, hp, raise, thenTimers]

/-- Under NOP the illegal word is reported and stepped over (R301, R38). -/
theorem step_of_illegal_nop (hp : s.cfg.illegalPolicy = .nop) :
    step s = .next (decrementTimers (reportIllegal (advance s) (wordAt s s.pc.toNat) s.pc)) := by
  rw [step_of_illegal running awake inRange illegal, execIllegal, hp, thenTimers]

end

end

/-! ### The statements -/

/-- Settles O43: the listed condition is the one under which the instruction's own check fails, and outside a fault's entry no
instruction writes the fault register. A `sp` up to 16 leaves no state in which CALL or RET stops. -/
theorem instructionsRaiseExactlyListedFaults : Obligations.InstructionsRaiseExactlyListedFaults :=
  fun i s hsp => ⟨fun f hf => ⟨_, exec_of_raisedFault hf, takeFault_enters f (encode i) s⟩, exec_of_no_raisedFault hsp⟩

/-- Settles O38: HALT is the fault's entry, NOP the advance and the report, each followed by the timer decrement. -/
theorem illegalWordFollowsPolicy : Obligations.IllegalWordFollowsPolicy := by
  refine ⟨rfl, fun s w running awake inRange hw illegal => ?_⟩
  subst hw
  cases hp : s.cfg.illegalPolicy with
  | halt =>
    refine ⟨_, step_of_illegal_halt running awake inRange illegal hp, decrementTimer_toNat s.dt, decrementTimer_toNat s.st,
      fun _ => ⟨rfl, ?_⟩, nofun⟩
    exact (takeFault_enters _ _ s).2.then_decrementTimers
  | nop =>
    refine ⟨_, step_of_illegal_nop running awake inRange illegal hp, decrementTimer_toNat s.dt, decrementTimer_toNat s.st,
      nofun, fun _ => ⟨rfl, rfl, ?_⟩⟩
    simpa only [or_assoc] using ((advance_frame s).trans (reportIllegal_frame _ _ s.pc)).then_decrementTimers

end Sys2Proof.Machine
end

section
/-! SUPPORT. Reset, parking and the sound timer (spec/70_reset_and_hazards.md, spec/60_exceptions.md R317): the reset state's
elements, the jump to its own address, and two states that differ in `ST` alone, said of each operation, then of each
instruction, then of the tick. -/

namespace Sys2Proof.Machine

section
variable {s t : State} {i : Instr}

/-! ### Reset -/

/-- Memory at reset is the font table below 0x050 (R31, R340). -/
theorem readByte_fresh_font (cfg : Config) (draws : Nat) (k : Fin 80) :
    readByte (State.fresh cfg draws) k.val = cfg.fontTable[k.val] := by
  simp [readByte, State.fresh, memRead, unlistedByte]

/-- Memory at reset is zero from 0x050 up (R31, R340). -/
theorem readByte_fresh_zero (cfg : Config) (draws : Nat) {a : Nat} (h : 0x050 ≤ a) :
    readByte (State.fresh cfg draws) a = 0 := by
  simp [readByte, State.fresh, memRead, unlistedByte, h]

/-! ### The parked core -/

/-- Where a JP to its own address stands at `pc`, the tick executes that JP (R352). -/
theorem executes_of_parked (h : parked s = true) : ∃ nnn, zextAddr nnn = s.pc ∧ Executes s (.jp nnn) := by
  simp only [parked, Bool.and_eq_true, beq_iff_eq, Bool.not_eq_true', decide_eq_true_eq] at h
  obtain ⟨⟨⟨running, awake⟩, inRange⟩, hword⟩ := h
  have hpc : zextAddr (s.pc.setWidth 12) = s.pc := by
    apply BitVec.eq_of_toNat_eq
    rw [zextAddr_toNat, BitVec.toNat_setWidth]
    omega
  have hencode : encode (.jp (s.pc.setWidth 12)) = wordAt s s.pc.toNat := by
    apply BitVec.eq_of_toNat_eq
    have hor : 2 ^ 12 * 1 + s.pc.toNat = 2 ^ 12 * 1 ||| s.pc.toNat := Nat.two_pow_add_eq_or_of_lt (by omega) 1
    calc (encode (.jp (s.pc.setWidth 12))).toNat
      _ = 4096 + s.pc.toNat := by
        rw [encode, fmtAddr_toNat, BitVec.toNat_setWidth, Nat.mod_eq_of_lt (by omega)]
        rfl
      _ = (wordAt s s.pc.toNat).toNat := by
        rw [hword, BitVec.toNat_or]
        exact hor
  exact ⟨_, hpc, running, awake, inRange, hencode ▸ decode_encode (wellFormed_of_profile_base rfl _)⟩

/-- The jump of a parked core undoes the advance, so its tick is the timer decrement (R352). -/
theorem step_of_parked (h : parked s = true) : step s = .next (decrementTimers s) := by
  obtain ⟨nnn, hpc, hx⟩ := executes_of_parked h
  rw [step_of_executes hx, exec, execJp, hpc]
  rfl

/-! ### The sound timer: operations -/

theorem advance_setST (s : State) (b : Byte) : advance (setST s b) = setST (advance s) b := rfl

theorem keyPoll_setST (s : State) (b : Byte) : keyPoll (setST s b) = setST (keyPoll s) b := by
  have hkey : lowestKeyDown (setST s b) = lowestKeyDown s := rfl
  unfold keyPoll
  rw [hkey]
  cases lowestKeyDown s <;> rfl

theorem skipIf_setST (c : Bool) (s : State) (b : Byte) : skipIf c (setST s b) = setST (skipIf c s) b := by
  cases c <;> rfl

theorem writeBytes_setST (s : State) (b : Byte) (a : Nat) (bs : List Byte) :
    writeBytes (setST s b) a bs = setST (writeBytes s a bs) b := by
  induction bs generalizing s a with
  | nil => rfl
  | cons byte bs ih => exact ih (writeByte s a byte) (a + 1)

theorem loadRegs_setST (s : State) (b : Byte) (base : Nat) (ks : List RegIdx) :
    loadRegs (setST s b) base ks = setST (loadRegs s base ks) b := by
  induction ks generalizing s with
  | nil => rfl
  | cons k ks ih => exact ih (setV s k (readByte s (base + k.val)))

theorem drawRows_setST (s : State) (b : Byte) (x0 y0 r left : Nat) (acc : Display × Bool) :
    drawRows (setST s b) x0 y0 r left acc = drawRows s x0 y0 r left acc := by
  induction left generalizing r acc with
  | zero => rfl
  | succ k ih => exact ih (r + 1) _

theorem drawSprite_setST (x y : RegIdx) (n : Fin 16) (s : State) (b : Byte) :
    drawSprite x y n (setST s b) = drawSprite x y n s :=
  drawRows_setST s b _ _ 0 n.val (s.disp, false)

/-! ### The sound timer: instructions and the tick -/

/-- No instruction reads `ST`: from states that differ in it alone, it answers states that differ in it alone (R317). -/
theorem exec_setST (b : Byte) (h : exec i s = .next t) : ∃ c, exec i (setST s b) = .next (setST t c) := by
  cases i with
  | ldSTVx x => cases h; exact ⟨getV s x, rfl⟩
  | ret | call =>
    simp only [exec, execRet, execCall, raise] at h ⊢
    split at h
    case isTrue hc => cases h; exact ⟨b, if_pos hc⟩
    case isFalse hc =>
      split at h <;> cases h
      case isFalse hle => exact ⟨b, (if_neg hc).trans (if_neg hle)⟩
  | seImm | sneImm | seReg | sneReg =>
    cases h
    exact ⟨b, congrArg _ (skipIf_setST _ (advance s) b)⟩
  | skp | sknp | ldFVx | ldBVx | ldMemVx | ldVxMem | drw =>
    simp only [exec, execSkp, execSknp, execLdFVx, execLdBVx, execLdMemVx, execLdVxMem, execDrw, raise, getV_setST, setST_i,
      drawSprite_setST, advance_setST, skipIf_setST, writeBytes_setST, loadRegs_setST] at h ⊢
    split at h <;> cases h <;> exact ⟨b, rfl⟩
  | _ => cases h; exact ⟨b, rfl⟩

/-- Nothing that decides which instruction a tick executes is `ST`. -/
theorem Executes.after_setST (hx : Executes s i) (b : Byte) : Executes (setST s b) i :=
  ⟨hx.running, hx.awake, hx.inRange, hx.decoded⟩

/-- Each kind of tick leaves of `ST` no trace outside `ST` (R317). -/
theorem step_setST (b : Byte) (h : step s = .next t) : ∃ c, step (setST s b) = .next (setST t c) := by
  rcases step_cases h with ⟨hf, rfl⟩ | ⟨running, waiting, rfl⟩ | ⟨running, awake, hpc, rfl⟩ |
    ⟨running, awake, inRange, illegal, ⟨hhalt, rfl⟩ | ⟨hnop, rfl⟩⟩ | ⟨i, t', hx, he, rfl⟩
  · exact ⟨decrementTimer b, step_of_halted hf⟩
  · have hstep : step (setST s b) = .next (decrementTimers (keyPoll (setST s b))) := step_of_waiting running waiting
    exact ⟨decrementTimer b, by rw [hstep, keyPoll_setST]; rfl⟩
  · exact ⟨decrementTimer b, step_of_fetch_none running awake hpc⟩
  · exact ⟨decrementTimer b, step_of_illegal_halt (s := setST s b) running awake inRange illegal hhalt⟩
  · exact ⟨decrementTimer b, step_of_illegal_nop (s := setST s b) running awake inRange illegal hnop⟩
  · obtain ⟨c, hc⟩ := exec_setST b he
    exact ⟨decrementTimer c, by rw [step_of_executes (hx.after_setST b), hc]; rfl⟩

end

/-! ### The statements -/

/-- Settles O50: a reset is the state at construction of the core's own configuration, in which no byte of memory is listed, so
each reads as its reset contents; a second reset starts from the same configuration. -/
theorem resetGivesListedValues : Obligations.ResetGivesListedValues := by
  refine ⟨fun s t h => ?_, rfl⟩
  cases h
  exact ⟨fun x => Vector.getElem_replicate _, rfl, rfl, fun k => Vector.getElem_replicate _, rfl, rfl, rfl,
    readByte_fresh_font _ _, fun _ => readByte_fresh_zero _ _, getPixel_blankDisplay, rfl, fun k => Vector.getElem_replicate _,
    rfl, rfl, rfl, rfl, rfl, rfl⟩

/-- Settles O54: a parked core's tick is the timer decrement, and what makes it parked is none of the timers. -/
theorem parkedCoreStaysParked : Obligations.ParkedCoreStaysParked :=
  fun s h => ⟨decrementTimers s, step_of_parked h, unchangedExcept_decrementTimers s, decrementTimer_toNat s.dt,
    decrementTimer_toNat s.st, h⟩

/-- Settles O58: whatever the tick does, it reads `ST` for the decrement of `ST` alone. -/
theorem soundTimerNeverInfluencesTheCore : Obligations.SoundTimerNeverInfluencesTheCore :=
  fun _ _ b h => step_setST b h

end Sys2Proof.Machine
end
